-- ==== Sys2Proof/Word.lean ====
section
/-! DEFINITION. The word and byte types (`00_scope.md` R6, R8, R9). -/

namespace Sys2Proof

/-- A Word: 16 bits, the width of every register, memory cell and address (R6, R9). -/
abbrev Word := BitVec 16

/-- A console byte, a value in 0..255 (R62, R63), and one half of a Word as an image stores it (R222). -/
abbrev Byte := BitVec 8

end Sys2Proof
end

