-- ==== Sys2Proof/Syntax.lean ====
section
/-! DEFINITION. The instructions: one constructor per row of `spec/opcode_table.json`
(`30_encoding.md` R100, R110). A field is the row's field of the same name (R92, R94, R95). -/

namespace Sys2Proof

/-- A register number R0..R7, the value of a 3-bit register field (R21, R92). -/
abbrev Reg := Fin 8

/-- The 26 rows of the opcode table. The bits of a word that no field covers (R98) are not part of an
instruction, but for RTI and RES, whose fault records the whole instruction word (R169, R170). -/
inductive Instr where
  /-- BR, row of R150: the mask bits n, z, p and PCoffset9. -/
  | br (n z p : Bool) (off : BitVec 9)
  /-- ADD, register form, R120. -/
  | addReg (dr sr1 sr2 : Reg)
  /-- ADD, immediate form, R121. -/
  | addImm (dr sr1 : Reg) (imm5 : BitVec 5)
  /-- LD, R130. -/
  | ld (dr : Reg) (off : BitVec 9)
  /-- ST, R134. -/
  | st (sr : Reg) (off : BitVec 9)
  /-- JSR, R152: PCoffset11. -/
  | jsr (off : BitVec 11)
  /-- JSRR, R153. -/
  | jsrr (base : Reg)
  /-- AND, register form, R122. -/
  | andReg (dr sr1 sr2 : Reg)
  /-- AND, immediate form, R123. -/
  | andImm (dr sr1 : Reg) (imm5 : BitVec 5)
  /-- LDR, R132. -/
  | ldr (dr base : Reg) (off : BitVec 6)
  /-- STR, R136. -/
  | str (sr base : Reg) (off : BitVec 6)
  /-- RTI, R169: `low` is `ir[11:0]`, kept only because the fault records the word. -/
  | rti (low : BitVec 12)
  /-- NOT, R124. -/
  | not (dr sr : Reg)
  /-- LDI, R131. -/
  | ldi (dr : Reg) (off : BitVec 9)
  /-- STI, R135. -/
  | sti (sr : Reg) (off : BitVec 9)
  /-- JMP, R151. The word with BaseR = 7 is the row RET. -/
  | jmp (base : Reg)
  /-- RES, R170: `low` is `ir[11:0]`, kept only because the fault records the word. -/
  | res (low : BitVec 12)
  /-- LEA, R133. -/
  | lea (dr : Reg) (off : BitVec 9)
  /-- TRAP, R160 with trapvect8. The six service rows refine it (R110), so the decoder gives this row
  the vectors outside 0x20..0x25 (R168). -/
  | trap (vect : BitVec 8)
  /-- GETC, TRAP x20, R162. -/
  | getc
  /-- OUT, TRAP x21, R163. -/
  | out
  /-- PUTS, TRAP x22, R164. -/
  | puts
  /-- IN, TRAP x23, R165. -/
  | inp
  /-- PUTSP, TRAP x24, R166. -/
  | putsp
  /-- HALT, TRAP x25, R167. -/
  | halt
  /-- RET, the row `alias_of` JMP: JMP with BaseR = 7 (R113, R151). -/
  | ret
  deriving DecidableEq, Repr

end Sys2Proof
end

