-- ==== Sys2Proof/WellFormed.lean ====
section
/-! DEFINITION. Which instructions the decoder gives: a row of the table that refines another, or is an
alias of one, "is to be tested before it" (`30_encoding.md` R101, R110), so the wider row stands only for
the words the narrower one leaves. The field ranges (R92, R95) are in the field types. -/

namespace Sys2Proof

/-- The vectors that have a service routine, 0x20..0x25 (R6, R160). -/
def isServiceVector (v : BitVec 8) : Bool :=
  v == 0x20 || v == 0x21 || v == 0x22 || v == 0x23 || v == 0x24 || v == 0x25

/-- The canonical form: TRAP carries no service vector (those are the rows GETC .. HALT) and JMP does
not name R7 (that is the row RET). The machine gives the other terms their meaning all the same. -/
def WellFormed : Instr → Bool
  | .trap v => !isServiceVector v
  | .jmp base => base != 7
  | .br _ _ _ _ => true
  | .addReg _ _ _ => true
  | .addImm _ _ _ => true
  | .ld _ _ => true
  | .st _ _ => true
  | .jsr _ => true
  | .jsrr _ => true
  | .andReg _ _ _ => true
  | .andImm _ _ _ => true
  | .ldr _ _ _ => true
  | .str _ _ _ => true
  | .rti _ => true
  | .not _ _ => true
  | .ldi _ _ => true
  | .sti _ _ => true
  | .res _ => true
  | .lea _ _ => true
  | .getc => true
  | .out => true
  | .puts => true
  | .inp => true
  | .putsp => true
  | .halt => true
  | .ret => true

end Sys2Proof
end

