-- ==== Sys2Proof/Decode.lean ====
section
/-! DEFINITION. The decoder (`30_encoding.md` R101), the encoder (R94, with the canonical filler of R98),
and the opcode table's masks and matches (R100). -/

namespace Sys2Proof

/-- A register field: three bits whose lowest is bit `lo` (R92). -/
def regField (ir : Word) (lo : Nat) : Reg := (ir.extractLsb' lo 3).toFin

/-- The opcode, `ir[15:12]` (R91). -/
def opcode (ir : Word) : BitVec 4 := ir.extractLsb' 12 4

/-- Opcode 0x1: `ir[5]` selects the form (R91, R101). -/
def decodeAdd (ir : Word) : Instr :=
  if ir.getLsbD 5 then .addImm (regField ir 9) (regField ir 6) (ir.extractLsb' 0 5)
  else .addReg (regField ir 9) (regField ir 6) (regField ir 0)

/-- Opcode 0x5: `ir[5]` selects the form (R91, R101). -/
def decodeAnd (ir : Word) : Instr :=
  if ir.getLsbD 5 then .andImm (regField ir 9) (regField ir 6) (ir.extractLsb' 0 5)
  else .andReg (regField ir 9) (regField ir 6) (regField ir 0)

/-- Opcode 0x4: `ir[11]` selects JSR or JSRR (R91, R101). -/
def decodeJsr (ir : Word) : Instr :=
  if ir.getLsbD 11 then .jsr (ir.extractLsb' 0 11) else .jsrr (regField ir 6)

/-- Opcode 0xC: the alias row RET is tested before the row JMP (R110). -/
def decodeJmp (ir : Word) : Instr :=
  if regField ir 6 = 7 then .ret else .jmp (regField ir 6)

/-- Opcode 0xF: the service rows by `ir[7:0]`, tested before the row TRAP (R101). -/
def decodeTrap (ir : Word) : Instr :=
  let v := ir.extractLsb' 0 8
  if v = 0x20 then .getc
  else if v = 0x21 then .out
  else if v = 0x22 then .puts
  else if v = 0x23 then .inp
  else if v = 0x24 then .putsp
  else if v = 0x25 then .halt
  else .trap v

/-- The decoder of one Word, total: "Every one of the 65,536 words decodes to exactly one row" (R101).
The last case is opcode 0xF, the only value of the four bits that is left. -/
def decode (ir : Word) : Instr :=
  match (opcode ir).toNat with
  | 0x0 => .br (ir.getLsbD 11) (ir.getLsbD 10) (ir.getLsbD 9) (ir.extractLsb' 0 9)
  | 0x1 => decodeAdd ir
  | 0x2 => .ld (regField ir 9) (ir.extractLsb' 0 9)
  | 0x3 => .st (regField ir 9) (ir.extractLsb' 0 9)
  | 0x4 => decodeJsr ir
  | 0x5 => decodeAnd ir
  | 0x6 => .ldr (regField ir 9) (regField ir 6) (ir.extractLsb' 0 6)
  | 0x7 => .str (regField ir 9) (regField ir 6) (ir.extractLsb' 0 6)
  | 0x8 => .rti (ir.extractLsb' 0 12)
  | 0x9 => .not (regField ir 9) (regField ir 6)
  | 0xA => .ldi (regField ir 9) (ir.extractLsb' 0 9)
  | 0xB => .sti (regField ir 9) (ir.extractLsb' 0 9)
  | 0xC => decodeJmp ir
  | 0xD => .res (ir.extractLsb' 0 12)
  | 0xE => .lea (regField ir 9) (ir.extractLsb' 0 9)
  | _ => decodeTrap ir

/-- Why bytes spell no instruction. -/
inductive DecodeError where
  /-- Fewer than the two bytes of one Word: every instruction is exactly one Word (R90). -/
  | truncated
  deriving DecidableEq, Repr

/-- Decoding a byte stream, most significant byte of a Word first as an image stores it (R222): the
instruction and the bytes after it. -/
def decodeBytes : List Byte → Except DecodeError (Instr × List Byte)
  | hi :: lo :: rest => .ok (decode (hi ++ lo), rest)
  | _ => .error .truncated

/-- The table's view of the decoder: the instruction whose `nbits` bits are `w`. No instruction is
longer than one Word (R105), so more than 16 bits are refused. -/
def decodeTableWord (nbits w : Nat) : Option Instr :=
  if nbits ≤ 16 then
    let ir : Word := BitVec.ofNat 16 (w % 2 ^ nbits)
    match decodeBytes [ir.extractLsb' 8 8, ir.extractLsb' 0 8] with
    | .ok (i, _) => some i
    | .error _ => none
  else none

/-- The three bits of a register number. -/
def regBits (r : Reg) : BitVec 3 := BitVec.ofFin r

/-- The canonical word of an instruction: the formats of R94, the opcodes of R100, and R98's filler
(ones for NOT, zeros elsewhere). -/
def encode : Instr → Word
  | .br n z p off => 0x0#4 ++ BitVec.ofBool n ++ BitVec.ofBool z ++ BitVec.ofBool p ++ off
  | .addReg dr sr1 sr2 => 0x1#4 ++ regBits dr ++ regBits sr1 ++ 0#1 ++ 0#2 ++ regBits sr2
  | .addImm dr sr1 imm5 => 0x1#4 ++ regBits dr ++ regBits sr1 ++ 1#1 ++ imm5
  | .ld dr off => 0x2#4 ++ regBits dr ++ off
  | .st sr off => 0x3#4 ++ regBits sr ++ off
  | .jsr off => 0x4#4 ++ 1#1 ++ off
  | .jsrr base => 0x4#4 ++ 0#1 ++ 0#2 ++ regBits base ++ 0#6
  | .andReg dr sr1 sr2 => 0x5#4 ++ regBits dr ++ regBits sr1 ++ 0#1 ++ 0#2 ++ regBits sr2
  | .andImm dr sr1 imm5 => 0x5#4 ++ regBits dr ++ regBits sr1 ++ 1#1 ++ imm5
  | .ldr dr base off => 0x6#4 ++ regBits dr ++ regBits base ++ off
  | .str sr base off => 0x7#4 ++ regBits sr ++ regBits base ++ off
  | .rti low => 0x8#4 ++ low
  | .not dr sr => 0x9#4 ++ regBits dr ++ regBits sr ++ 0x3F#6
  | .ldi dr off => 0xA#4 ++ regBits dr ++ off
  | .sti sr off => 0xB#4 ++ regBits sr ++ off
  | .jmp base => 0xC#4 ++ 0#3 ++ regBits base ++ 0#6
  | .res low => 0xD#4 ++ low
  | .lea dr off => 0xE#4 ++ regBits dr ++ off
  | .trap vect => 0xF#4 ++ 0#4 ++ vect
  | .getc => 0xF020
  | .out => 0xF021
  | .puts => 0xF022
  | .inp => 0xF023
  | .putsp => 0xF024
  | .halt => 0xF025
  | .ret => 0xC1C0

/-- The mask of an instruction's row (R100; RET's from `opcode_table.json`). -/
def rowMask : Instr → Word
  | .addReg _ _ _ => 0xF020
  | .addImm _ _ _ => 0xF020
  | .andReg _ _ _ => 0xF020
  | .andImm _ _ _ => 0xF020
  | .jsr _ => 0xF800
  | .jsrr _ => 0xF800
  | .getc => 0xF0FF
  | .out => 0xF0FF
  | .puts => 0xF0FF
  | .inp => 0xF0FF
  | .putsp => 0xF0FF
  | .halt => 0xF0FF
  | .ret => 0xF1C0
  | .br _ _ _ _ => 0xF000
  | .ld _ _ => 0xF000
  | .st _ _ => 0xF000
  | .ldr _ _ _ => 0xF000
  | .str _ _ _ => 0xF000
  | .rti _ => 0xF000
  | .not _ _ => 0xF000
  | .ldi _ _ => 0xF000
  | .sti _ _ => 0xF000
  | .jmp _ => 0xF000
  | .res _ => 0xF000
  | .lea _ _ => 0xF000
  | .trap _ => 0xF000

/-- The match of an instruction's row (R100). -/
def rowMatch : Instr → Word
  | .br _ _ _ _ => 0x0000
  | .addReg _ _ _ => 0x1000
  | .addImm _ _ _ => 0x1020
  | .ld _ _ => 0x2000
  | .st _ _ => 0x3000
  | .jsr _ => 0x4800
  | .jsrr _ => 0x4000
  | .andReg _ _ _ => 0x5000
  | .andImm _ _ _ => 0x5020
  | .ldr _ _ _ => 0x6000
  | .str _ _ _ => 0x7000
  | .rti _ => 0x8000
  | .not _ _ => 0x9000
  | .ldi _ _ => 0xA000
  | .sti _ _ => 0xB000
  | .jmp _ => 0xC000
  | .res _ => 0xD000
  | .lea _ _ => 0xE000
  | .trap _ => 0xF000
  | .getc => 0xF020
  | .out => 0xF021
  | .puts => 0xF022
  | .inp => 0xF023
  | .putsp => 0xF024
  | .halt => 0xF025
  | .ret => 0xC1C0

/-- The bits the decoder examines for a row: the row's mask and its fields. The others are the `-` bits
of R94 and R98 (RTI and RES: all are kept, because the fault records the word). -/
def examinedBits : Instr → Word
  | .addReg _ _ _ => 0xFFE7
  | .andReg _ _ _ => 0xFFE7
  | .not _ _ => 0xFFC0
  | .jmp _ => 0xF1C0
  | .ret => 0xF1C0
  | .jsrr _ => 0xF9C0
  | .trap _ => 0xF0FF
  | .getc => 0xF0FF
  | .out => 0xF0FF
  | .puts => 0xF0FF
  | .inp => 0xF0FF
  | .putsp => 0xF0FF
  | .halt => 0xF0FF
  | .br _ _ _ _ => 0xFFFF
  | .addImm _ _ _ => 0xFFFF
  | .ld _ _ => 0xFFFF
  | .st _ _ => 0xFFFF
  | .jsr _ => 0xFFFF
  | .andImm _ _ _ => 0xFFFF
  | .ldr _ _ _ => 0xFFFF
  | .str _ _ _ => 0xFFFF
  | .rti _ => 0xFFFF
  | .ldi _ _ => 0xFFFF
  | .sti _ _ => 0xFFFF
  | .res _ => 0xFFFF
  | .lea _ _ => 0xFFFF

end Sys2Proof
end

