-- ==== Sys2Proof/Machine/Bits.lean ====
section
/-! DEFINITION. Extensions and the two bytes of a Word (`00_scope.md` R10, R11). -/

namespace Sys2Proof.Machine

/-- `sext_N(v)` of R10: the N-bit field with its top bit replicated up to bit 15. -/
def sext {n : Nat} (v : BitVec n) : Word := v.signExtend 16

/-- `zext_8(v)` of R11: a byte in bits 7..0, bits 15..8 zero. -/
def zext8 (b : Byte) : Word := b.zeroExtend 16

/-- `w[7:0]`. -/
def lowByte (w : Word) : Byte := w.extractLsb' 0 8

/-- `w[15:8]`. -/
def highByte (w : Word) : Byte := w.extractLsb' 8 8

/-- The Word with the given two bytes, the more significant first. -/
def wordOfBytes (hi lo : Byte) : Word := hi ++ lo

/-- `swap16` of R225, the loader's exchange of a Word's two bytes. The core never uses it: the image is
read most significant byte first (R222). -/
def swap16 (w : Word) : Word := (w <<< 8) ||| (w >>> 8)

end Sys2Proof.Machine
end

