-- ==== Sys2Proof/Config.lean ====
section
/-! DEFINITION. What is fixed for the machine (`00_scope.md` R6): the memory size and the reset `pc`; and the free
values of the environment, the bytes and the poll answers of a console without end (R7's `CONSOLE_IN`). -/

namespace Sys2Proof.Config

/-- MEM_WORDS of R6: the number of Word addresses, 0x0000..0xFFFF. -/
abbrev memWords : Nat := 65536

/-- RESET_PC of R6 and R25. -/
abbrev resetPc : Word := 0x3000

/-! ## The console's free values (`20_memory.md` R61, R62, R65, D19; log entry 25)

"The answer is the environment's" and the bytes are too. A sequence without end is given block by block, so that
how far its next zero byte, or its next `false`, lies is itself a free value: every sequence of bytes is one of
blocks of non-zero bytes each closed by a zero byte, the last block possibly without end, and every sequence of
answers is one of blocks of `true` each closed by a `false`. -/

/-- How many non-zero bytes block `j` of the input holds before the zero byte that closes it; `none`: the
block does not end. -/
opaque nonZeroBytes : Nat → Option Nat

/-- The `i`-th non-zero byte of block `j`, less one. -/
opaque nonZeroByte : Nat → Nat → Fin 255

/-- How many polls of block `j` answer `true` before the one that answers `false` and closes it; `none`: the
block does not end. -/
opaque trueAnswers : Nat → Option Nat

end Sys2Proof.Config
end

