-- ==== Sys2Proof/Machine/State.lean ====
section
/-! DEFINITION. The state of the machine (`10_state.md` R20 to R39), the reasons a step can stop, and
the state after reset (`70_reset_and_hazards.md` R221). -/

namespace Sys2Proof.Machine

/-- Memory (R32): a list of cells in the canonical form `Memory.wf`. The Word at address `a` is held as
two byte cells, its bits 15..8 at cell `2a` and its bits 7..0 at cell `2a + 1`, the order in which an image
stores it (R222); no instruction can tell (R55). An unlisted cell reads as 0x00: "all zero except what the
loader writes" (R33). Log entry 1. -/
abbrev Memory := List Host.Cell

/-- The canonical form: cells strictly rising, none equal to what an unlisted cell reads as, and none
outside the 65,536 Words. -/
abbrev Memory.wf (m : Memory) : Prop :=
  m.Pairwise (fun c d => c.1 < d.1) ∧ ∀ c ∈ m, c.2 ≠ 0 ∧ c.1 < 2 * Config.memWords

/-- The causes a `raise` records (R31, R190). -/
inductive Cause where
  /-- RTI or RES was executed; `ir` is the instruction word (R169, R170). -/
  | illegalOpcode (ir : Word)
  /-- TRAP with a vector outside 0x20..0x25 (R168). -/
  | unknownTrapVector (v : BitVec 8)
  /-- `ConsoleRead()` on an input that has ended (R62). -/
  | consoleInputEnd
  deriving DecidableEq, Repr

/-- A place in a sequence without end: the block, and the place in it (log entry 25). -/
structure Cursor where
  block : Nat
  pos : Nat
  deriving DecidableEq, Repr

/-- What follows the keys the console has been given (R62, R65, R66; log entry 2). -/
inductive InputTail where
  /-- The input has ended: no byte is waiting and none will ever come (R62). -/
  | ended
  /-- The input stays open and no byte ever arrives (R62, R66). -/
  | silent
  /-- The byte `b` arrives again and again without end (R65: the input need not be finite). -/
  | endless (b : Byte)
  /-- Bytes arrive without end, the environment's free values from the cursor on (R65, D19). -/
  | stream (c : Cursor)
  deriving DecidableEq, Repr

/-- How polls are answered after the listed answers (R61, R65; log entry 2). -/
inductive PollTail where
  /-- A poll answers whether a byte is there: R65's deterministic console. -/
  | readiness
  /-- The answers are the environment's free values from the cursor on, without any bound on how often it answers
  `false` (R65, D19). -/
  | free (c : Cursor)
  deriving DecidableEq, Repr

/-- The keyboard side of the console as the core can observe it, the parameter `CONSOLE_IN` of R7 as
plain data: the environment's answers to the core's coming requests (R36, R60 to R66; log entry 2). -/
structure Console where
  /-- The bytes not yet taken, in the order the console received them (R62). -/
  keys : List Byte
  /-- What follows them. -/
  tail : InputTail
  /-- The environment's answers to the coming polls, next first (R61). -/
  polls : List Bool
  /-- How the polls after those are answered. -/
  pollTail : PollTail
  deriving DecidableEq, Repr

/-- The state of the machine: everything R20 lists, and the console (R36, R37). -/
structure State where
  /-- `mem`, R32. -/
  mem : Memory
  /-- `x[0]` .. `x[7]`, R21. -/
  regs : Vector Word 8
  /-- The program counter, R24. -/
  pc : Word
  /-- The condition register, R26: N is bit 2, Z bit 1, P bit 0. -/
  cond : Word
  /-- The running flag, R30. -/
  run : Bool
  /-- The fault cell, R31: empty, or the cause that was raised. -/
  fault : Option Cause
  /-- The keyboard side of the console, R36. -/
  console : Console
  /-- The bytes written to the display side, in program order, R37. -/
  out : List Byte
  deriving DecidableEq, Repr

/-- Why no step is taken or a step never completes. The hardware's own fatal conditions are not here:
they are the fault cell's causes, and the step that raises one answers a next state (R16, R195). -/
inductive Fault where
  /-- Raised by `step`: HALT has cleared the running flag, "the core takes no step" (R227, R229). Safe: the
  hardware does nothing more either. -/
  | halted
  /-- Raised by `step`: the fault cell holds `c`, so "the core takes no step, ever" (R196). Safe. -/
  | faulted (c : Cause)
  /-- Raised by GETC and IN: the input is open and no byte ever arrives, so the step never completes
  (R62, R66; U8, STUCK). Safe: the hardware reaches no next state. -/
  | consoleWait
  /-- Raised by PUTS (and by the same bound in PUTSP, whose walk always ends at KBDR's zero high byte): the walk
  meets no terminator, so the step never completes (R164, R166, R237; U7, STUCK). Safe: the hardware reaches no
  next state. -/
  | endlessString
  deriving DecidableEq, Repr

/-- No instruction of this hardware is refused. -/
inductive Refusal where
  /-- Raised by an arm of `exec` whose instruction has no meaning yet; no arm does. Safe. -/
  | notModelled (mnemonic : String)
  deriving DecidableEq, Repr

/-- What one operation of a pseudocode block ends in: it goes on with a value, it has raised (R16: the
instruction is over, the fault cell written, every write before it standing), or it never completes. -/
inductive Eff (α : Type) where
  | done (v : α) (s : State)
  | raised (s : State)
  | stuck (r : Fault)
  deriving DecidableEq, Repr

/-- The console at reset: R65's deterministic console with no key in it. DESIGN CHOICE, log entry 3: R221
leaves it to the environment. -/
def Console.empty : Console := { keys := [], tail := .ended, polls := [], pollTail := .readiness }

/-- The state before the first step (R221) with no image placed: memory zero, R0..R7 and `cond` zero,
`pc` 0x3000, `run` set, `fault` empty, nothing written to the display. -/
def State.reset : State :=
  { mem := []
    regs := Vector.replicate 8 0
    pc := Config.resetPc
    cond := 0
    run := true
    fault := none
    console := Console.empty
    out := [] }

end Sys2Proof.Machine
end

