-- ==== Sys2Proof/Machine/Memory.lean ====
section
/-! DEFINITION. The memory cells: one byte cell, and the Word at an address (`10_state.md` R32, R33). -/

namespace Sys2Proof.Machine

/-- The byte in cell `k`; an unlisted cell reads as 0x00 (R33). -/
def Memory.byteAt : Memory → Nat → Byte
  | [], _ => 0
  | c :: m, k => if c.1 = k then c.2 else Memory.byteAt m k

/-- A new cell put before the first cell above it. -/
def Memory.insertCell (c : Host.Cell) : Memory → Memory
  | [] => [c]
  | d :: m => if c.1 < d.1 then c :: d :: m else d :: Memory.insertCell c m

/-- `b` stored in cell `k`; storing what an unlisted cell reads as removes the cell. -/
def Memory.setByte (m : Memory) (k : Nat) (b : Byte) : Memory :=
  let rest : Memory := m.filter (fun c => c.1 ≠ k)
  if b = 0 then rest else Memory.insertCell (k, b) rest

/-- `mem[a]`, the raw cell of R14. -/
def Memory.wordAt (m : Memory) (a : Word) : Word :=
  wordOfBytes (m.byteAt (2 * a.toNat)) (m.byteAt (2 * a.toNat + 1))

/-- `mem[a] <- v`. -/
def Memory.setWord (m : Memory) (a : Word) (v : Word) : Memory :=
  (m.setByte (2 * a.toNat) (highByte v)).setByte (2 * a.toNat + 1) (lowByte v)

end Sys2Proof.Machine
end

