-- ==== Sys2Proof/Machine/Ops.lean ====
section
/-! DEFINITION. The shared operations: registers (`00_scope.md` R12), `raise` (R16), the console port
(`20_memory.md` R60 to R66), the memory gateway (R50 to R52), TRAP's entry (`43_trap_and_illegal.md`
R160) and the fetch (`70_reset_and_hazards.md` R228). -/

namespace Sys2Proof.Machine

/-! ## Sequencing (R16, R17) -/

/-- The lines of a pseudocode block one after another (R17): the next line sees the writes of this one, and
none runs after a raise or an operation that never completes. -/
def Eff.andThen {α β : Type} (e : Eff α) (k : α → State → Eff β) : Eff β :=
  match e with
  | .done v s => k v s
  | .raised s => .raised s
  | .stuck r => .stuck r

/-- The outcome of an instruction's whole block: a raise ends the step in the state it left (R16, R195). -/
def Eff.outcome {α : Type} (e : Eff α) : Host.Outcome State Fault Refusal :=
  match e with
  | .done _ s => .next s
  | .raised s => .next s
  | .stuck r => .fault r

/-! ## Registers (R12, R21) -/

/-- `x[i]`; no register is hardwired (R21). -/
def State.reg (s : State) (i : Reg) : Word := s.regs.get i

/-- `x[i] <- v`. -/
def State.setReg (s : State) (i : Reg) (v : Word) : State :=
  { s with regs := s.regs.set i.val v i.isLt }

/-- `pc <- target`. -/
def State.setPc (s : State) (target : Word) : State := { s with pc := target }

/-! ## The fatal conditions' one entry (R16, R190, R195) -/

/-- `raise <Cause>(info)`: the fault cell is written, "every other piece of state as it stands at that
point", and control goes nowhere: "there is no handler address" (R195). There is no return (R196, R197). -/
def raise (c : Cause) (s : State) : State := { s with fault := some c }

/-! ## The console port -/

/-- What is left of a cursor's block, when block `j` is `len j` long; `none`: no end. -/
def Cursor.left (len : Nat → Option Nat) (c : Cursor) : Option Nat := (len c.block).map (· - c.pos)

/-- The next place: in the same block, or past the element that closes it. -/
def Cursor.next (len : Nat → Option Nat) (c : Cursor) : Cursor :=
  if c.left len = some 0 then { block := c.block + 1, pos := 0 } else { block := c.block, pos := c.pos + 1 }

/-- The input byte at a cursor. Free values, log entry 25. -/
def Cursor.byte (c : Cursor) : Byte :=
  if c.left Config.nonZeroBytes = some 0 then 0
  else BitVec.ofNat 8 ((Config.nonZeroByte c.block c.pos).val + 1)

/-- The poll answer at a cursor. Free values, log entry 25. -/
def Cursor.answer (c : Cursor) : Bool := c.left Config.trueAnswers != some 0

/-- The console once its next byte has been taken (R62). -/
def Console.afterKey (c : Console) : Console :=
  match c.keys with
  | _ :: rest => { c with keys := rest }
  | [] =>
    match c.tail with
    | .ended => c
    | .silent => c
    | .endless _ => c
    | .stream k => { c with tail := .stream (k.next Config.nonZeroBytes) }

/-- The console once its next poll has been answered (R61): no byte is taken. -/
def Console.afterPoll (c : Console) : Console :=
  match c.polls with
  | _ :: rest => { c with polls := rest }
  | [] =>
    match c.pollTail with
    | .readiness => c
    | .free k => { c with pollTail := .free (k.next Config.trueAnswers) }

/-- Whether a byte is there to be read without waiting. -/
def Console.ready (c : Console) : Bool :=
  !c.keys.isEmpty ||
    (match c.tail with | .ended => false | .silent => false | .endless _ => true | .stream _ => true)

/-- Whether a poll may answer `true` (R61): the read that follows must not wait. On an ended input it may,
and that read then raises (D5). -/
def Console.mayAnswerTrue (c : Console) : Bool := c.ready || c.tail == .ended

/-- The environment's answer to the next poll, where R61 leaves it the choice. -/
def Console.answer (c : Console) : Bool :=
  match c.polls with
  | answer :: _ => answer
  | [] =>
    match c.pollTail with
    | .readiness => c.ready
    | .free k => k.answer

/-- `ConsolePoll()` (R61): the environment's next answer, which consumes no key. Log entries 2 and 8. -/
def consolePoll (s : State) : Bool × State :=
  (s.console.answer && s.console.mayAnswerTrue, { s with console := s.console.afterPoll })

/-- `ConsoleRead()` (R62): the next byte in arrival order, taken from the input; at the end of the input
`raise ConsoleInputEnd`; on an open input where nothing ever arrives it never returns (R66). -/
def consoleRead (s : State) : Eff Byte :=
  let taken := { s with console := s.console.afterKey }
  match s.console.keys with
  | k :: _ => .done k taken
  | [] =>
    match s.console.tail with
    | .ended => .raised (raise .consoleInputEnd s)
    | .silent => .stuck .consoleWait
    | .endless b => .done b taken
    | .stream c => .done c.byte taken

/-- `ConsoleWrite(b)` (R63): never waits and never fails. -/
def consoleWrite (b : Byte) (s : State) : State := { s with out := s.out ++ [b] }

/-- `ConsoleWrite` of several bytes in order. -/
def consoleWriteAll (bs : List Byte) (s : State) : State :=
  bs.foldl (fun s b => consoleWrite b s) s

/-- `ConsoleFlush()` (R64): "changes no state that any rule reads" (D15). -/
def consoleFlush (s : State) : State := s

/-! ## The memory gateway -/

/-- KBSR's address (R6, R34). -/
def kbsr : Word := 0xFE00

/-- KBDR's address (R6, R35). -/
def kbdr : Word := 0xFE02

/-- KBSR's ready value, bit 15 alone (R6, R34). -/
def keyReady : Word := 0x8000

/-- `mem[a] <- v` on the raw cell (R14). -/
def storeWord (a v : Word) (s : State) : State := { s with mem := s.mem.setWord a v }

/-- `MemWrite(addr, 16, v)` (R51): a plain store at every address. -/
def memWrite (a v : Word) (s : State) : State := storeWord a v s

/-- The action of a read of 0xFE00 before the cell is returned (R52): poll; with a key, take it, KBSR becomes
0x8000 and KBDR the key; without one KBSR becomes 0x0000. If the read raises, neither cell is written. -/
def pollKeyboard (s : State) : Eff Unit :=
  let (answer, s) := consolePoll s
  if answer then
    (consoleRead s).andThen fun k s =>
      .done () (storeWord kbdr (zext8 k) (storeWord kbsr keyReady s))
  else .done () (storeWord kbsr 0 s)

/-- `MemRead(addr, 16)` (R52). -/
def memRead (a : Word) (s : State) : Eff Word :=
  if a = kbsr then (pollKeyboard s).andThen fun _ s => .done (s.mem.wordAt a) s
  else .done (s.mem.wordAt a) s

/-! ## TRAP's entry and the fetch -/

/-- `x[7] <- pc` with the incremented `pc`, the link of JSR, JSRR and TRAP (R149) and all that TRAP's entry
saves (R160, R195). -/
def linkR7 (s : State) : State := s.setReg 7 s.pc

/-- The fetch (R228): the word at `pc` through the gateway, then the increment modulo 2^16, which does not
happen if the read raises (R194). -/
def fetch (s : State) : Eff Word :=
  (memRead s.pc s).andThen fun ir s => .done ir (s.setPc (s.pc + 1))

end Sys2Proof.Machine
end

