-- ==== Sys2Proof/Machine/Flags.lean ====
section
/-! DEFINITION. The condition register (`00_scope.md` R13, `10_state.md` R26, `30_encoding.md` R97). -/

namespace Sys2Proof.Machine

/-- The encodings of R6 and R26. -/
def flagN : Word := 0x0004

/-- Z, bit 1. -/
def flagZ : Word := 0x0002

/-- P, bit 0. -/
def flagP : Word := 0x0001

/-- The flag of a value, in the order of R13's tests. -/
def flagsOf (v : Word) : Word :=
  if v = 0 then flagZ else if v.getLsbD 15 then flagN else flagP

/-- `setcc(i)` of R13: reads `x[i]`, writes `cond`. -/
def setcc (i : Reg) (s : State) : State := { s with cond := flagsOf (s.reg i) }

/-- BR's test of R97 and R150: the mask meets `cond[2:0]`, n against N, z against Z, p against P. -/
def maskMeets (n z p : Bool) (cond : Word) : Bool :=
  (n && cond.getLsbD 2) || (z && cond.getLsbD 1) || (p && cond.getLsbD 0)

end Sys2Proof.Machine
end

