-- ==== Sys2Proof/Machine/Operands.lean ====
section
/-! DEFINITION. The effective addresses (`41_data_movement.md` R129) and the destination register with its
flags (`10_state.md` R27). -/

namespace Sys2Proof.Machine

/-- `EA_pc = pc + sext_9(PCoffset9)`, with the incremented `pc`. -/
def eaPc (off : BitVec 9) (s : State) : Word := s.pc + sext off

/-- `EA_base = x[BaseR] + sext_6(offset6)`. -/
def eaBase (base : Reg) (off : BitVec 6) (s : State) : Word := s.reg base + sext off

/-- `EA_ind = MemRead(EA_pc, 16)`: the pointer read, a gateway read. -/
def eaInd (off : BitVec 9) (s : State) : Eff Word := memRead (eaPc off s) s

/-- `x[DR] <- v; setcc(DR)`, how each of the seven flag-writing instructions ends (R27). -/
def writeDest (dr : Reg) (v : Word) (s : State) : State := setcc dr (s.setReg dr v)

/-- `x[DR] <- MemRead(a, 16); setcc(DR)`. -/
def loadInto (dr : Reg) (a : Word) (s : State) : Eff Unit :=
  (memRead a s).andThen fun v s => .done () (writeDest dr v s)

end Sys2Proof.Machine
end

