-- ==== Sys2Proof/Machine/Control.lean ====
section
/-! DEFINITION. BR, JMP, RET, JSR, JSRR (`42_control.md`). -/

namespace Sys2Proof.Machine

/-- R150. -/
def execBr (n z p : Bool) (off : BitVec 9) (s : State) : Host.Outcome State Fault Refusal :=
  .next (if maskMeets n z p s.cond then s.setPc (eaPc off s) else s)

/-- R151. -/
def execJmp (base : Reg) (s : State) : Host.Outcome State Fault Refusal :=
  .next (s.setPc (s.reg base))

/-- R151 with BaseR = 7. -/
def execRet (s : State) : Host.Outcome State Fault Refusal :=
  .next (s.setPc (s.reg 7))

/-- R152: R7 first; the offset is added to the incremented `pc`. -/
def execJsr (off : BitVec 11) (s : State) : Host.Outcome State Fault Refusal :=
  .next ((linkR7 s).setPc (s.pc + sext off))

/-- R153: R7 first, then `x[BaseR]` from the register file after that write (D12). -/
def execJsrr (base : Reg) (s : State) : Host.Outcome State Fault Refusal :=
  .next ((linkR7 s).setPc ((linkR7 s).reg base))

end Sys2Proof.Machine
end

