-- ==== Sys2Proof/Machine/DataMovement.lean ====
section
/-! DEFINITION. LD, LDI, LDR, LEA, ST, STI, STR (`41_data_movement.md`). -/

namespace Sys2Proof.Machine

/-- R130. -/
def execLd (dr : Reg) (off : BitVec 9) (s : State) : Host.Outcome State Fault Refusal :=
  (loadInto dr (eaPc off s) s).outcome

/-- R131: the pointer first, then the data. -/
def execLdi (dr : Reg) (off : BitVec 9) (s : State) : Host.Outcome State Fault Refusal :=
  ((eaInd off s).andThen fun p s => loadInto dr p s).outcome

/-- R132. -/
def execLdr (dr base : Reg) (off : BitVec 6) (s : State) : Host.Outcome State Fault Refusal :=
  (loadInto dr (eaBase base off s) s).outcome

/-- R133: no memory is read, and the flags are written. -/
def execLea (dr : Reg) (off : BitVec 9) (s : State) : Host.Outcome State Fault Refusal :=
  .next (writeDest dr (eaPc off s) s)

/-- R134. -/
def execSt (sr : Reg) (off : BitVec 9) (s : State) : Host.Outcome State Fault Refusal :=
  .next (memWrite (eaPc off s) (s.reg sr) s)

/-- R135: the pointer is read through the gateway; if that read raises nothing is stored. -/
def execSti (sr : Reg) (off : BitVec 9) (s : State) : Host.Outcome State Fault Refusal :=
  ((eaInd off s).andThen fun p s => .done () (memWrite p (s.reg sr) s)).outcome

/-- R136. -/
def execStr (sr base : Reg) (off : BitVec 6) (s : State) : Host.Outcome State Fault Refusal :=
  .next (memWrite (eaBase base off s) (s.reg sr) s)

end Sys2Proof.Machine
end

