-- ==== Sys2Proof/Machine/Operate.lean ====
section
/-! DEFINITION. ADD, AND, NOT (`40_operate.md`). -/

namespace Sys2Proof.Machine

/-- R120. -/
def execAddReg (dr sr1 sr2 : Reg) (s : State) : Host.Outcome State Fault Refusal :=
  .next (writeDest dr (s.reg sr1 + s.reg sr2) s)

/-- R121. -/
def execAddImm (dr sr1 : Reg) (imm5 : BitVec 5) (s : State) : Host.Outcome State Fault Refusal :=
  .next (writeDest dr (s.reg sr1 + sext imm5) s)

/-- R122. -/
def execAndReg (dr sr1 sr2 : Reg) (s : State) : Host.Outcome State Fault Refusal :=
  .next (writeDest dr (s.reg sr1 &&& s.reg sr2) s)

/-- R123. -/
def execAndImm (dr sr1 : Reg) (imm5 : BitVec 5) (s : State) : Host.Outcome State Fault Refusal :=
  .next (writeDest dr (s.reg sr1 &&& sext imm5) s)

/-- R124. -/
def execNot (dr sr : Reg) (s : State) : Host.Outcome State Fault Refusal :=
  .next (writeDest dr (~~~ s.reg sr) s)

end Sys2Proof.Machine
end

