-- ==== Sys2Proof/Machine/Trap.lean ====
section
/-! DEFINITION. TRAP, its six service routines, and the illegal opcodes (`43_trap_and_illegal.md`). A
service is what R162 to R167 write "after `x[7] <- pc`"; the meanings put R160's entry before it. -/

namespace Sys2Proof.Machine

/-! ## The service routines -/

/-- R162. -/
def serviceGetc (s : State) : Eff Unit :=
  (consoleRead s).andThen fun k s => .done () (s.setReg 0 (zext8 k))

/-- R163. -/
def serviceOut (s : State) : Eff Unit :=
  .done () (consoleFlush (consoleWrite (lowByte (s.reg 0)) s))

/-- The loop of R164 for at most `fuel` words. -/
def putsWalk : (fuel : Nat) → (a : Word) → State → Eff Unit
  | 0, _, _ => .stuck .endlessString
  | fuel + 1, a, s =>
    (memRead a s).andThen fun w s =>
      if w = 0 then .done () (consoleFlush s)
      else putsWalk fuel (a + 1) (consoleWrite (lowByte w) s)

/-- The loop of R166 for at most `fuel` words. -/
def putspWalk : (fuel : Nat) → (a : Word) → State → Eff Unit
  | 0, _, _ => .stuck .endlessString
  | fuel + 1, a, s =>
    (memRead a s).andThen fun w s =>
      if w = 0 then .done () (consoleFlush s)
      else if highByte w = 0 then .done () (consoleFlush (consoleWrite (lowByte w) s))
      else putspWalk fuel (a + 1) (consoleWrite (highByte w) (consoleWrite (lowByte w) s))

/-- How many non-zero bytes can still be read after the listed keys, before a zero byte or none; `none`: no bound. -/
def InputTail.nonZeroKeys : InputTail → Option Nat
  | .ended => some 0
  | .silent => some 0
  | .endless b => if b = 0 then some 0 else none
  | .stream c => c.left Config.nonZeroBytes

/-- How many polls can still answer `true` after the listed answers, before a `false`; `none`: no bound. -/
def PollTail.trueAnswers : PollTail → Option Nat
  | .readiness => none
  | .free c => c.left Config.trueAnswers

/-- How often a walk can pass 0xFE00 before the console gives a zero byte or a `false`, where it will. -/
def Console.passes (c : Console) : Nat :=
  (c.keys.length + c.tail.nonZeroKeys.getD 0) + (c.polls.length + c.pollTail.trueAnswers.getD 0)

/-- How many words a walk reads before it is known never to end. Every 65,536 reads pass 0xFE00 once, where the walk
ends unless a key is found; a zero key ends it at 0xFE02. When no bound is left, one more pass shows every word of
a memory in which only KBDR changes, and never to zero. Log entry 7. -/
def walkFuel (s : State) : Nat := (s.console.passes + 2) * Config.memWords

/-- R164. -/
def servicePuts (s : State) : Eff Unit := putsWalk (walkFuel s) (s.reg 0) s

/-- R166. -/
def servicePutsp (s : State) : Eff Unit := putspWalk (walkFuel s) (s.reg 0) s

/-- The prompt of R6 and R165, "Enter a character: ". -/
def prompt : List Byte :=
  [0x45, 0x6E, 0x74, 0x65, 0x72, 0x20, 0x61, 0x20, 0x63, 0x68, 0x61, 0x72, 0x61, 0x63, 0x74, 0x65,
    0x72, 0x3A, 0x20]

/-- R165: prompt, read, echo, then R0. -/
def serviceIn (s : State) : Eff Unit :=
  (consoleRead (consoleFlush (consoleWriteAll prompt s))).andThen fun k s =>
    .done () ((consoleFlush (consoleWrite k s)).setReg 0 (zext8 k))

/-- The message of R6 and R167, "HALT" and 0x0A. -/
def haltMessage : List Byte := [0x48, 0x41, 0x4C, 0x54, 0x0A]

/-- `run <- 0`. -/
def clearRun (s : State) : State := { s with run := false }

/-- R167. -/
def serviceHalt (s : State) : Eff Unit :=
  .done () (clearRun (consoleFlush (consoleWriteAll haltMessage s)))

/-- The `case v of` of R160; any other vector raises (R168). -/
def service (v : BitVec 8) (s : State) : Eff Unit :=
  if v = 0x20 then serviceGetc s
  else if v = 0x21 then serviceOut s
  else if v = 0x22 then servicePuts s
  else if v = 0x23 then serviceIn s
  else if v = 0x24 then servicePutsp s
  else if v = 0x25 then serviceHalt s
  else .raised (raise (.unknownTrapVector v) s)

/-! ## The meanings -/

/-- R160, for every vector: R7, then the case; R168 for the vectors that have no row of their own. -/
def execTrap (vect : BitVec 8) (s : State) : Host.Outcome State Fault Refusal :=
  (service vect (linkR7 s)).outcome

/-- R160 and R162. -/
def execGetc (s : State) : Host.Outcome State Fault Refusal := (serviceGetc (linkR7 s)).outcome

/-- R160 and R163. -/
def execOut (s : State) : Host.Outcome State Fault Refusal := (serviceOut (linkR7 s)).outcome

/-- R160 and R164. -/
def execPuts (s : State) : Host.Outcome State Fault Refusal := (servicePuts (linkR7 s)).outcome

/-- R160 and R165. -/
def execIn (s : State) : Host.Outcome State Fault Refusal := (serviceIn (linkR7 s)).outcome

/-- R160 and R166. -/
def execPutsp (s : State) : Host.Outcome State Fault Refusal := (servicePutsp (linkR7 s)).outcome

/-- R160 and R167. -/
def execHalt (s : State) : Host.Outcome State Fault Refusal := (serviceHalt (linkR7 s)).outcome

/-- R169: `raise IllegalOpcode(ir)`; R7 is not written. -/
def execRti (low : BitVec 12) (s : State) : Host.Outcome State Fault Refusal :=
  .next (raise (.illegalOpcode (0x8#4 ++ low)) s)

/-- R170. -/
def execRes (low : BitVec 12) (s : State) : Host.Outcome State Fault Refusal :=
  .next (raise (.illegalOpcode (0xD#4 ++ low)) s)

end Sys2Proof.Machine
end

