-- ==== Sys2Proof/Machine/Step.lean ====
section
/-! DEFINITION. The step and the run loop's test (`70_reset_and_hazards.md` R227, R228), and how the host
places an instruction where the next step fetches it. -/

namespace Sys2Proof.Machine

/-- One turn of the run loop. The loop tests `run` and `fault` before every step (R227); a machine it
leaves takes no step (R196, R229). Otherwise fetch, increment, decode, execute (R228); a fetch that raises
ends the step (R194). -/
def step (s : State) : Host.Outcome State Fault Refusal :=
  match s.fault, s.run with
  | some c, _ => .fault (.faulted c)
  | none, false => .fault .halted
  | none, true =>
    match fetch s with
    | .done ir s => exec (decode ir) s
    | .raised s => .next s
    | .stuck r => .fault r

/-- The state whose very next step runs the instruction word `w`: the word at `pc`, and the run loop not
stopped. At 0xFE00 no stored word can ever be fetched (R236), so a `pc` there is first put back to 0x3000.
It stands for the image load that places a program (R222, R223); log entry 5. -/
def State.withFetchWord (s : State) (nbits w : Nat) : State :=
  let pc := if s.pc = kbsr then Config.resetPc else s.pc
  { s with
    pc := pc
    mem := s.mem.setWord pc (BitVec.ofNat 16 (w % 2 ^ nbits))
    run := true
    fault := none }

end Sys2Proof.Machine
end

