-- ==== Sys2Proof/Machine/Image.lean ====
section
/-! DEFINITION. The image contract (`70_reset_and_hazards.md` R222 to R225) and the state before the first
step for any image and console (R7, R221). -/

namespace Sys2Proof.Machine

/-- An image as R222 reads its bytes: the origin, then the words to place from it on. -/
structure Image where
  origin : Word
  words : List Word
  deriving DecidableEq, Repr

/-- The Words of a byte sequence, the more significant byte first (R222); none for a byte left over. -/
def wordsOfBytes : List Byte → Option (List Word)
  | [] => some []
  | hi :: lo :: rest => (wordsOfBytes rest).map (wordOfBytes hi lo :: ·)
  | [_] => none

/-- The image in a byte sequence (R222). The three malformed kinds are load failures, "VM is not started":
fewer than two bytes, an odd trailing byte, more than 65,536 - origin words (R224, D16). -/
def parseImage : List Byte → Option Image
  | hi :: lo :: rest =>
    let origin := wordOfBytes hi lo
    (wordsOfBytes rest).bind fun ws =>
      if origin.toNat + ws.length ≤ Config.memWords then some { origin := origin, words := ws } else none
  | _ => none

/-- `mem[a + i] <- w[i]` for each word in order, by plain stores (R223). -/
def placeWords (a : Word) : List Word → Memory → Memory
  | [], m => m
  | w :: ws, m => placeWords (a + 1) ws (m.setWord a w)

/-- One image placed in memory (R223). -/
def loadImage (bytes : List Byte) (m : Memory) : Option Memory :=
  (parseImage bytes).map fun im => placeWords im.origin im.words m

/-- The images placed one after another into zero-initialised memory: "where two cover the same address the
later store stands" (R223). -/
def loadImages : List (List Byte) → Memory → Option Memory
  | [], m => some m
  | b :: bs, m => (loadImage b m).bind (loadImages bs)

/-- The state before the first step (R221) for the parameters `IMAGE` and `CONSOLE_IN` of R7; none where an
image does not load: "VM is not started" (R224). -/
def boot (images : List (List Byte)) (console : Console) : Option State :=
  (loadImages images []).map fun m => { State.reset with mem := m, console := console }

end Sys2Proof.Machine
end

