-- ==== Sys2Proof/Safety.lean ====
section
/-! DEFINITION. The terms claims are made in: what a normal end is, what an invariant of the machine is, what
an instruction changes and leaves alone, and the loops of PUTS and PUTSP as the spec writes them. Nothing
here is used by the machine, and the arithmetic is said a second way (by integers) on purpose. -/

namespace Sys2Proof.Safety

open Sys2Proof.Machine

/-! ## Ends of a run (R227, R229) -/

/-- The run loop takes another step (R227). -/
def Live (s : State) : Prop := s.run = true ∧ s.fault = none

/-- The normal end of a run (R229): `run = 0` and `fault` empty. -/
def HaltedNormally (s : State) : Prop := s.run = false ∧ s.fault = none

/-- `t` is reached from `s` in exactly `k` steps. -/
def Reaches (k : Nat) (s t : State) : Prop := Host.Core.run Sys2Proof.core k s = .next t

/-- A safe run: it ends normally, having written `bytes` to the display. Not a run that ends in a fault. -/
def EndsWriting (s : State) (bytes : List Byte) : Prop :=
  ∃ k t, Reaches k s t ∧ HaltedNormally t ∧ t.out = s.out ++ bytes

/-! ## The invariant (R26, R39) -/

/-- "`cond` takes exactly four values over the life of the machine" (R26). -/
def CondLegal (c : Word) : Prop := c = 0x0000 ∨ c = 0x0001 ∨ c = 0x0002 ∨ c = 0x0004

/-- One flag is set: a value `setcc` writes (R13). -/
def OneFlag (c : Word) : Prop := c = 0x0001 ∨ c = 0x0002 ∨ c = 0x0004

/-- A cause carries what the rule that raises it says (R190). -/
def CauseLegal : Cause → Prop
  | .illegalOpcode ir => ir &&& 0xF000 = 0x8000 ∨ ir &&& 0xF000 = 0xD000
  | .unknownTrapVector v => v.toNat < 0x20 ∨ 0x25 < v.toNat
  | .consoleInputEnd => True

/-- Memory is in its canonical form, `cond` is one of its four values, the fault cell's cause is one its rule
can raise, and a normal end is not also an abnormal one. -/
def MachineInv (s : State) : Prop :=
  s.mem.wf ∧ CondLegal s.cond ∧ (∀ c, s.fault = some c → CauseLegal c) ∧ (s.run = false → s.fault = none)

/-! ## Fields and values, said by integers -/

/-- `ir[lo+2:lo]` as a register number (R92). -/
def regAt (ir : Word) (lo : Nat) : Reg := Fin.ofNat 8 (ir.toNat / 2 ^ lo)

/-- The signed value of a field, as a Word (R10: adding `sext_N(v)` "adds the signed value of the field"). -/
def signed {n : Nat} (v : BitVec n) : Word := BitVec.ofInt 16 v.toInt

/-- The flag of a value by its two's-complement sign (R27). -/
def signFlag (v : Word) : Word := if v.toInt < 0 then 0x0004 else if v.toInt = 0 then 0x0002 else 0x0001

/-- A byte as a Word with a zero high byte (R11). -/
def byteWord (b : Byte) : Word := BitVec.ofNat 16 b.toNat

/-- `v[7:0]`. -/
def loByte (v : Word) : Byte := BitVec.ofNat 8 v.toNat

/-- `v[15:8]`. -/
def hiByte (v : Word) : Byte := BitVec.ofNat 8 (v.toNat / 256)

/-! ## What changes and what does not -/

/-- `run`, `fault` and the console's two sides are as before. -/
def KeepsRest (s t : State) : Prop :=
  t.run = s.run ∧ t.fault = s.fault ∧ t.console = s.console ∧ t.out = s.out

/-- `x[dr] <- v; setcc(dr)` and nothing else (R27). -/
def WritesDest (dr : Reg) (v : Word) (s t : State) : Prop :=
  t.reg dr = v ∧ (∀ r, r ≠ dr → t.reg r = s.reg r) ∧ t.cond = signFlag v ∧ t.pc = s.pc ∧ t.mem = s.mem ∧
    KeepsRest s t

/-- `mem[a] <- v` and nothing else: every other word of memory reads as before (R51). -/
def StoresWord (a v : Word) (s t : State) : Prop :=
  t.mem.wordAt a = v ∧ (∀ b, b ≠ a → t.mem.wordAt b = s.mem.wordAt b) ∧ (∀ r, t.reg r = s.reg r) ∧
    t.cond = s.cond ∧ t.pc = s.pc ∧ KeepsRest s t

/-- `pc <- target` and nothing else. -/
def Jumps (target : Word) (s t : State) : Prop :=
  t.pc = target ∧ (∀ r, t.reg r = s.reg r) ∧ t.cond = s.cond ∧ t.mem = s.mem ∧ KeepsRest s t

/-- `x[7] <- pc`, then `pc <- target`, and nothing else. -/
def Calls (target : Word) (s t : State) : Prop :=
  t.pc = target ∧ t.reg 7 = s.pc ∧ (∀ r, r ≠ 7 → t.reg r = s.reg r) ∧ t.cond = s.cond ∧ t.mem = s.mem ∧
    KeepsRest s t

/-- What every TRAP does and leaves alone (R160): R7 is written, R1..R6, `cond` and `pc` are as before. -/
def TrapFrame (s t : State) : Prop :=
  t.reg 7 = s.pc ∧ (∀ r, r ≠ 7 → r ≠ 0 → t.reg r = s.reg r) ∧ t.cond = s.cond ∧ t.pc = s.pc

/-- A TRAP that also leaves R0, memory, `run` and `fault`. -/
def TrapKeeps (s t : State) : Prop :=
  TrapFrame s t ∧ t.reg 0 = s.reg 0 ∧ t.mem = s.mem ∧ t.run = s.run ∧ t.fault = s.fault

/-- A TRAP that ended in `raise c`, with the console's input as it was. -/
def TrapRaises (c : Cause) (s t : State) : Prop :=
  TrapFrame s t ∧ t.reg 0 = s.reg 0 ∧ t.mem = s.mem ∧ t.run = s.run ∧ t.fault = some c ∧
    t.console = s.console

/-! ## Which instructions do what (R20, R23, R24, R27, R54, R190) -/

/-- The register an instruction names in its DR field (R27: "exactly the seven instructions"). -/
def destOf : Instr → Option Reg
  | .addReg dr _ _ => some dr
  | .addImm dr _ _ => some dr
  | .andReg dr _ _ => some dr
  | .andImm dr _ _ => some dr
  | .not dr _ => some dr
  | .ld dr _ => some dr
  | .ldi dr _ => some dr
  | .ldr dr _ _ => some dr
  | .lea dr _ => some dr
  | .br _ _ _ _ => none
  | .st _ _ => none
  | .jsr _ => none
  | .jsrr _ => none
  | .str _ _ _ => none
  | .rti _ => none
  | .sti _ _ => none
  | .jmp _ => none
  | .res _ => none
  | .trap _ => none
  | .getc => none
  | .out => none
  | .puts => none
  | .inp => none
  | .putsp => none
  | .halt => none
  | .ret => none

/-- TRAP in any of its rows (R160). -/
def isTrap : Instr → Prop
  | .trap _ => True
  | .getc => True
  | .out => True
  | .puts => True
  | .inp => True
  | .putsp => True
  | .halt => True
  | _ => False

/-- The registers an instruction may write (R20, R23): DR; R7 by JSR, JSRR and TRAP; R0 by GETC and IN. -/
def mayWrite (i : Instr) (r : Reg) : Prop :=
  destOf i = some r ∨ (r = 7 ∧ (isTrap i ∨ (∃ off, i = .jsr off) ∨ ∃ base, i = .jsrr base)) ∨
    (r = 0 ∧ (i = .getc ∨ i = .inp ∨ i = .trap 0x20 ∨ i = .trap 0x23))

/-- The instructions that write `pc` (R24): BR, JMP (RET), JSR, JSRR. -/
def writesPc : Instr → Prop
  | .br _ _ _ _ => True
  | .jmp _ => True
  | .ret => True
  | .jsr _ => True
  | .jsrr _ => True
  | _ => False

/-- The stores (R32). -/
def isStore : Instr → Prop
  | .st _ _ => True
  | .sti _ _ => True
  | .str _ _ _ => True
  | _ => False

/-- The instructions that read memory after the fetch (R54). -/
def readsMemory : Instr → Prop
  | .ld _ _ => True
  | .ldi _ _ => True
  | .ldr _ _ _ => True
  | .sti _ _ => True
  | .puts => True
  | .putsp => True
  | .trap v => v = 0x22 ∨ v = 0x24
  | _ => False

/-- The services that read the console themselves (R60): GETC and IN. -/
def readsConsole : Instr → Prop
  | .getc => True
  | .inp => True
  | .trap v => v = 0x20 ∨ v = 0x23
  | _ => False

/-- The services that write to the display (R60). -/
def writesConsole : Instr → Prop
  | .out => True
  | .puts => True
  | .inp => True
  | .putsp => True
  | .halt => True
  | .trap v => v = 0x21 ∨ v = 0x22 ∨ v = 0x23 ∨ v = 0x24 ∨ v = 0x25
  | _ => False

/-- The instructions that always raise (R168, R169, R170). -/
def alwaysRaises : Instr → Prop
  | .rti _ => True
  | .res _ => True
  | .trap v => v.toNat < 0x20 ∨ 0x25 < v.toNat
  | _ => False

/-- An outcome with its next state changed by `f`. -/
def mapNext (f : State → State) : Host.Outcome State Fault Refusal → Host.Outcome State Fault Refusal
  | .next s => .next (f s)
  | .fault r => .fault r
  | .refused r => .refused r

/-! ## Strings in memory and the loops of R164 and R166 -/

/-- The words `ws` stand at `a`, `a + 1`, ... (modulo 2^16), none of them at KBSR. -/
def StringAt (s : State) (a : Word) (ws : List Word) : Prop :=
  ∀ (i : Nat) (h : i < ws.length),
    s.mem.wordAt (a + BitVec.ofNat 16 i) = ws[i] ∧ a + BitVec.ofNat 16 i ≠ 0xFE00

/-- The loop of R164 at address `a`: it ends in the state `t`. -/
inductive PutsLoop : Word → State → State → Prop where
  | terminator {a : Word} {s s' : State} (h : memRead a s = .done 0 s') : PutsLoop a s s'
  | char {a w : Word} {s s' t : State} (h : memRead a s = .done w s') (nonzero : w ≠ 0)
      (more : PutsLoop (a + 1) (consoleWrite (loByte w) s') t) : PutsLoop a s t
  | raised {a : Word} {s s' : State} (h : memRead a s = .raised s') : PutsLoop a s s'

/-- The loop of R166 at address `a`: it ends in the state `t`. -/
inductive PutspLoop : Word → State → State → Prop where
  | terminator {a : Word} {s s' : State} (h : memRead a s = .done 0 s') : PutspLoop a s s'
  | last {a w : Word} {s s' : State} (h : memRead a s = .done w s') (nonzero : w ≠ 0)
      (short : hiByte w = 0) : PutspLoop a s (consoleWrite (loByte w) s')
  | chars {a w : Word} {s s' t : State} (h : memRead a s = .done w s') (long : hiByte w ≠ 0)
      (more : PutspLoop (a + 1) (consoleWrite (hiByte w) (consoleWrite (loByte w) s')) t) :
      PutspLoop a s t
  | raised {a : Word} {s s' : State} (h : memRead a s = .raised s') : PutspLoop a s s'

/-! ## Images -/

/-- The bytes of an image file (R222): the origin, then the words, each most significant byte first. -/
def imageBytes (origin : Word) (ws : List Word) : List Byte :=
  hiByte origin :: loByte origin :: ws.flatMap fun w => [hiByte w, loByte w]

end Sys2Proof.Safety
end

