-- ==== Sys2Proof/Certificates/Slice0/Obligations.lean ====
section
/-! DEFINITION. The statements for the provers. In a statement about an instruction the state has `pc`
already incremented, as the instruction's rule has it (R17, R228). A statement of a rule that gives an
encoding begins with it: the words of the row decode to the instruction. -/

open Sys2Proof Sys2Proof.Machine Sys2Proof.Safety

/-! ## Reset and images -/

/-- The state after reset with no image, and what every image and console leave as it is there (R221): `cond` zero
(the spec's decision D10, log 17), `run` set (D11, log 18), nothing recorded and nothing written, and memory in
the model's canonical form (log 1). -/
def Obligations.ResetState : Prop :=
  (∀ r, State.reset.reg r = 0x0000) ∧ State.reset.pc = 0x3000 ∧ State.reset.cond = 0x0000 ∧
    State.reset.run = true ∧ State.reset.fault = none ∧ State.reset.out = [] ∧
    (∀ a, State.reset.mem.wordAt a = 0x0000) ∧
    ∀ images con s, boot images con = some s → s.cond = 0x0000 ∧ s.run = true ∧ s.fault = none ∧
      s.console = con ∧ s.out = [] ∧ s.mem.wf

/-- R22, R25, R33: before the first step, for any image that fits, every register holds 0x0000, `pc` is 0x3000
whatever the image's origin, and memory holds the image's word where it covers an address and 0x0000
elsewhere. -/
def Obligations.StateBeforeFirstStep : Prop :=
  ∀ (origin : Word) (ws : List Word) (con : Console), origin.toNat + ws.length ≤ 65536 →
    ∃ s, boot [imageBytes origin ws] con = some s ∧ (∀ r, s.reg r = 0x0000) ∧ s.pc = 0x3000 ∧
      (∀ (i : Nat) (h : i < ws.length), s.mem.wordAt (origin + BitVec.ofNat 16 i) = ws[i]) ∧
      ∀ a : Word, a.toNat < origin.toNat ∨ origin.toNat + ws.length ≤ a.toNat → s.mem.wordAt a = 0x0000

/-- R223: an image is placed by plain stores, so where it covers an address its word stands, over whatever an
earlier image left, and every other address keeps what it held. -/
def Obligations.ImagePlacement : Prop :=
  ∀ (m : Memory) (origin : Word) (ws : List Word), origin.toNat + ws.length ≤ 65536 →
    ∃ m', loadImage (imageBytes origin ws) m = some m' ∧
      (∀ (i : Nat) (h : i < ws.length), m'.wordAt (origin + BitVec.ofNat 16 i) = ws[i]) ∧
      ∀ a : Word, a.toNat < origin.toNat ∨ origin.toNat + ws.length ≤ a.toNat →
        m'.wordAt a = m.wordAt a

/-- R224: an image longer than 65,536 - origin words, one with an odd byte after the origin, and one
shorter than two bytes are load failures: the core is not started (the spec's decision D16, log 22). -/
def Obligations.MalformedImagesDoNotLoad : Prop :=
  ∀ (con : Console),
    (∀ (origin : Word) (ws : List Word), 65536 < origin.toNat + ws.length →
      boot [imageBytes origin ws] con = none) ∧
    (∀ (origin : Word) (ws : List Word) (b : Byte), boot [imageBytes origin ws ++ [b]] con = none) ∧
    (∀ b : Byte, boot [[b]] con = none) ∧ boot [[]] con = none

/-! ## Invariants -/

/-- The invariant holds at reset (R39, and the model's canonical form of memory, log 1). -/
def Obligations.ResetMeetsInvariant : Prop := MachineInv State.reset

/-- From every state that meets it, a step that answers a next state keeps the invariant: memory in
canonical form, `cond` one of its four values (R26, R39), a cause only its rule can raise, and a halted state
never also a faulted one (R196). The canonical form is the model's (log 1). -/
def Obligations.StepKeepsInvariant : Prop :=
  ∀ s t, MachineInv s → step s = .next t → MachineInv t

/-- R28: once a flag is set exactly one flag is set "at every later time": no step ever brings `cond` back
to zero. -/
def Obligations.OneFlagIsKept : Prop :=
  ∀ s t, OneFlag s.cond → step s = .next t → OneFlag t.cond

/-! ## Encoding -/

/-- The decoder reads back every well-formed instruction from its canonical word (R94, R98's filler), every
operand at every value. Which rows are well formed is the model's reading of R101 (log 20). -/
def Obligations.DecodeOfEncode : Prop :=
  ∀ i, WellFormed i = true → decode (encode i) = i

/-- The other direction (R98, R101): every Word decodes to a well-formed instruction of whose row it is, and
the instruction keeps every bit the decoder examines; only the `-` bits of R94 are lost (log 20). -/
def Obligations.EncodeOfDecode : Prop :=
  ∀ w : Word, WellFormed (decode w) = true ∧ w &&& rowMask (decode w) = rowMatch (decode w) ∧
    encode (decode w) &&& examinedBits (decode w) = w &&& examinedBits (decode w)

/-- R98: bits that no field covers are not examined, so words that differ only there decode to the same
instruction; RTI and RES differ only in the word the fault records. The spec's decisions D6 and D13 (log 13). -/
def Obligations.UnexaminedBitsAreIgnored : Prop :=
  ∀ v w : Word,
    ((v &&& 0xF020 = 0x1000 ∨ v &&& 0xF020 = 0x5000) → v &&& 0xFFE7 = w &&& 0xFFE7 →
      decode v = decode w) ∧
    (v &&& 0xF000 = 0x9000 → v &&& 0xFFC0 = w &&& 0xFFC0 → decode v = decode w) ∧
    (v &&& 0xF000 = 0xC000 → v &&& 0xF1C0 = w &&& 0xF1C0 → decode v = decode w) ∧
    (v &&& 0xF800 = 0x4000 → v &&& 0xF9C0 = w &&& 0xF9C0 → decode v = decode w) ∧
    (v &&& 0xF000 = 0xF000 → v &&& 0xF0FF = w &&& 0xF0FF → decode v = decode w) ∧
    (v &&& 0xF000 = 0x8000 → w &&& 0xF000 = 0x8000 → ∀ s,
      ∃ tv tw, exec (decode v) s = .next tv ∧ exec (decode w) s = .next tw ∧
        tv = { tw with fault := some (.illegalOpcode v) }) ∧
    (v &&& 0xF000 = 0xD000 → w &&& 0xF000 = 0xD000 → ∀ s,
      ∃ tv tw, exec (decode v) s = .next tv ∧ exec (decode w) s = .next tw ∧
        tv = { tw with fault := some (.illegalOpcode v) })

/-- Words written out in the spec (`40` to `43`, `95_test_vectors.md`) decode to the instructions it says
they are. A sanity statement. -/
def Obligations.SampleWordsDecode : Prop :=
  decode 0x1220 = .addImm 1 0 0 ∧ decode 0x1401 = .addReg 2 0 1 ∧ decode 0x5642 = .andReg 3 1 2 ∧
  decode 0x947F = .not 2 1 ∧ decode 0x2405 = .ld 2 5 ∧ decode 0xA202 = .ldi 1 2 ∧
  decode 0x68BF = .ldr 4 2 0x3F ∧ decode 0xE002 = .lea 0 2 ∧ decode 0x37FE = .st 3 0x1FE ∧
  decode 0xB001 = .sti 0 1 ∧ decode 0x7380 = .str 1 6 0 ∧ decode 0x0403 = .br false true false 3 ∧
  decode 0xC080 = .jmp 2 ∧ decode 0xC1C0 = .ret ∧ decode 0x4802 = .jsr 2 ∧ decode 0x40C0 = .jsrr 3 ∧
  decode 0xF125 = .halt ∧ decode 0xF0A5 = .trap 0xA5 ∧ decode 0x8000 = .rti 0 ∧ decode 0xD123 = .res 0x123

/-- R10: sign extension keeps the field in the low N bits and replicates its top bit; with that bit clear it
is the field itself, with it set the field with ones above; added to a Word it adds the field's signed
value. -/
def Obligations.SignExtension : Prop :=
  ∀ (n : Nat) (v : BitVec n), 1 ≤ n → n ≤ 16 →
    (v.getLsbD (n - 1) = false → sext v = BitVec.ofNat 16 v.toNat) ∧
    (v.getLsbD (n - 1) = true → sext v = BitVec.ofNat 16 v.toNat ||| (0xFFFF#16 <<< n)) ∧
    (∀ a : Word, a + sext v = BitVec.ofInt 16 (a.toNat + v.toInt)) ∧
    -(2 ^ (n - 1) : Int) ≤ v.toInt ∧ v.toInt < 2 ^ (n - 1)

/-! ## Operate instructions -/

/-- R120: ADD, register form. -/
def Obligations.AddRegister : Prop :=
  (∀ w : Word, w &&& 0xF020 = 0x1000 → decode w = .addReg (regAt w 9) (regAt w 6) (regAt w 0)) ∧
  ∀ (dr sr1 sr2 : Reg) (s : State), ∃ t, exec (.addReg dr sr1 sr2) s = .next t ∧
    WritesDest dr (BitVec.ofNat 16 ((s.reg sr1).toNat + (s.reg sr2).toNat)) s t

/-- R121: ADD, immediate form. -/
def Obligations.AddImmediate : Prop :=
  (∀ w : Word, w &&& 0xF020 = 0x1020 → decode w = .addImm (regAt w 9) (regAt w 6) (w.setWidth 5)) ∧
  ∀ (dr sr1 : Reg) (imm5 : BitVec 5) (s : State), ∃ t, exec (.addImm dr sr1 imm5) s = .next t ∧
    WritesDest dr (BitVec.ofInt 16 ((s.reg sr1).toNat + imm5.toInt)) s t

/-- R122: AND, register form, bit by bit. -/
def Obligations.AndRegister : Prop :=
  (∀ w : Word, w &&& 0xF020 = 0x5000 → decode w = .andReg (regAt w 9) (regAt w 6) (regAt w 0)) ∧
  ∀ (dr sr1 sr2 : Reg) (s : State), ∃ t v, exec (.andReg dr sr1 sr2) s = .next t ∧ WritesDest dr v s t ∧
    ∀ k, v.getLsbD k = ((s.reg sr1).getLsbD k && (s.reg sr2).getLsbD k)

/-- R123: AND, immediate form: the immediate is sign-extended before the AND. -/
def Obligations.AndImmediate : Prop :=
  (∀ w : Word, w &&& 0xF020 = 0x5020 → decode w = .andImm (regAt w 9) (regAt w 6) (w.setWidth 5)) ∧
  ∀ (dr sr1 : Reg) (imm5 : BitVec 5) (s : State), ∃ t v, exec (.andImm dr sr1 imm5) s = .next t ∧
    WritesDest dr v s t ∧
    ∀ k, v.getLsbD k = ((s.reg sr1).getLsbD k && imm5.getLsbD (min k 4))

/-- R124: NOT: the complement of the register named by bits 8..6, the spec's decision D7 (log 14). -/
def Obligations.NotComplement : Prop :=
  (∀ w : Word, w &&& 0xF000 = 0x9000 → decode w = .not (regAt w 9) (regAt w 6)) ∧
  ∀ (dr sr : Reg) (s : State), ∃ t, exec (.not dr sr) s = .next t ∧
    WritesDest dr (BitVec.ofNat 16 (65535 - (s.reg sr).toNat)) s t

/-! ## Data movement -/

/-- R130: LD. A read of any address but KBSR is a plain read; at KBSR the read is the gateway's, and what it
leaves, or its raise, is what the instruction builds on. -/
def Obligations.LoadPcRelative : Prop :=
  (∀ w : Word, w &&& 0xF000 = 0x2000 → decode w = .ld (regAt w 9) (w.setWidth 9)) ∧
  ∀ (dr : Reg) (off : BitVec 9) (s : State),
    (s.pc + signed off ≠ 0xFE00 → ∃ t, exec (.ld dr off) s = .next t ∧
      WritesDest dr (s.mem.wordAt (s.pc + signed off)) s t) ∧
    (∀ v s', memRead (s.pc + signed off) s = .done v s' → ∃ t, exec (.ld dr off) s = .next t ∧
      WritesDest dr v s' t) ∧
    (∀ s', memRead (s.pc + signed off) s = .raised s' → exec (.ld dr off) s = .next s')

/-- R131: LDI: the pointer is read first, then the data, both through the gateway. -/
def Obligations.LoadIndirect : Prop :=
  (∀ w : Word, w &&& 0xF000 = 0xA000 → decode w = .ldi (regAt w 9) (w.setWidth 9)) ∧
  ∀ (dr : Reg) (off : BitVec 9) (s : State),
    (s.pc + signed off ≠ 0xFE00 → s.mem.wordAt (s.pc + signed off) ≠ 0xFE00 →
      ∃ t, exec (.ldi dr off) s = .next t ∧
        WritesDest dr (s.mem.wordAt (s.mem.wordAt (s.pc + signed off))) s t) ∧
    (∀ p v s' s'', memRead (s.pc + signed off) s = .done p s' → memRead p s' = .done v s'' →
      ∃ t, exec (.ldi dr off) s = .next t ∧ WritesDest dr v s'' t) ∧
    (∀ s', memRead (s.pc + signed off) s = .raised s' → exec (.ldi dr off) s = .next s') ∧
    (∀ p s' s'', memRead (s.pc + signed off) s = .done p s' → memRead p s' = .raised s'' →
      exec (.ldi dr off) s = .next s'')

/-- R132: LDR: the base is read before DR is written. -/
def Obligations.LoadBaseOffset : Prop :=
  (∀ w : Word, w &&& 0xF000 = 0x6000 → decode w = .ldr (regAt w 9) (regAt w 6) (w.setWidth 6)) ∧
  ∀ (dr base : Reg) (off : BitVec 6) (s : State),
    (s.reg base + signed off ≠ 0xFE00 → ∃ t, exec (.ldr dr base off) s = .next t ∧
      WritesDest dr (s.mem.wordAt (s.reg base + signed off)) s t) ∧
    (∀ v s', memRead (s.reg base + signed off) s = .done v s' → ∃ t,
      exec (.ldr dr base off) s = .next t ∧ WritesDest dr v s' t) ∧
    (∀ s', memRead (s.reg base + signed off) s = .raised s' → exec (.ldr dr base off) s = .next s')

/-- R133: LEA: an address, with the flags written from it, and no memory read. -/
def Obligations.LoadEffectiveAddress : Prop :=
  (∀ w : Word, w &&& 0xF000 = 0xE000 → decode w = .lea (regAt w 9) (w.setWidth 9)) ∧
  ∀ (dr : Reg) (off : BitVec 9) (s : State), ∃ t, exec (.lea dr off) s = .next t ∧
    WritesDest dr (BitVec.ofInt 16 (s.pc.toNat + off.toInt)) s t

/-- R134: ST stores at `eaPc`, which is `pc + sext_9(PCoffset9)`, at every address, KBSR and KBDR included;
every other word of memory reads as before. -/
def Obligations.StorePcRelative : Prop :=
  (∀ w : Word, w &&& 0xF000 = 0x3000 → decode w = .st (regAt w 9) (w.setWidth 9)) ∧
  ∀ (sr : Reg) (off : BitVec 9) (s : State), eaPc off s = s.pc + signed off ∧
    ∃ t, exec (.st sr off) s = .next t ∧ StoresWord (eaPc off s) (s.reg sr) s t

/-- R135: STI: the pointer is read through the gateway; the store is a plain store at the pointer. If the
pointer read raises nothing is stored. -/
def Obligations.StoreIndirect : Prop :=
  (∀ w : Word, w &&& 0xF000 = 0xB000 → decode w = .sti (regAt w 9) (w.setWidth 9)) ∧
  ∀ (sr : Reg) (off : BitVec 9) (s : State),
    (s.pc + signed off ≠ 0xFE00 → ∃ t, exec (.sti sr off) s = .next t ∧
      StoresWord (s.mem.wordAt (s.pc + signed off)) (s.reg sr) s t) ∧
    (∀ p s', memRead (s.pc + signed off) s = .done p s' → ∃ t, exec (.sti sr off) s = .next t ∧
      StoresWord p (s.reg sr) s' t) ∧
    (∀ s', memRead (s.pc + signed off) s = .raised s' → exec (.sti sr off) s = .next s' ∧
      s'.mem = s.mem)

/-- R136: STR stores at `eaBase`, which is `x[BaseR] + sext_6(offset6)`. -/
def Obligations.StoreBaseOffset : Prop :=
  (∀ w : Word, w &&& 0xF000 = 0x7000 → decode w = .str (regAt w 9) (regAt w 6) (w.setWidth 6)) ∧
  ∀ (sr base : Reg) (off : BitVec 6) (s : State), eaBase base off s = s.reg base + signed off ∧
    ∃ t, exec (.str sr base off) s = .next t ∧ StoresWord (eaBase base off s) (s.reg sr) s t

/-! ## Control -/

/-- R150: BR is taken exactly when the mask and `cond[2:0]` have a bit in common; taken or not it changes
nothing but `pc`. -/
def Obligations.ConditionalBranch : Prop :=
  (∀ w : Word, w &&& 0xF000 = 0x0000 →
    decode w = .br (w.getLsbD 11) (w.getLsbD 10) (w.getLsbD 9) (w.setWidth 9)) ∧
  ∀ (n z p : Bool) (off : BitVec 9) (s : State),
    let mask : BitVec 3 := BitVec.ofBool n ++ BitVec.ofBool z ++ BitVec.ofBool p
    (mask &&& s.cond.setWidth 3 ≠ 0 → ∃ t, exec (.br n z p off) s = .next t ∧
      Jumps (s.pc + signed off) s t) ∧
    (mask &&& s.cond.setWidth 3 = 0 → exec (.br n z p off) s = .next s)

/-- R234: while `cond` is zero no BR is taken, BRnzp included, and a transfer then needs JMP or JSR; once a
flag is set BRnzp is always taken, and mask 0b000 never is. -/
def Obligations.BranchBeforeAnyFlag : Prop :=
  ∀ (off : BitVec 9) (s : State),
    (s.cond = 0x0000 → ∀ n z p, exec (.br n z p off) s = .next s) ∧
    (s.cond = 0x0000 → ∀ base off', ∃ t u, exec (.jmp base) s = .next t ∧ t.pc = s.reg base ∧
      exec (.jsr off') s = .next u ∧ u.pc = s.pc + signed off') ∧
    (OneFlag s.cond → ∃ t, exec (.br true true true off) s = .next t ∧ Jumps (s.pc + signed off) s t) ∧
    exec (.br false false false off) s = .next s

/-- R151: JMP loads `pc` from the base register; RET is JMP with BaseR = 7. -/
def Obligations.JumpAndReturn : Prop :=
  (∀ w : Word, w &&& 0xF000 = 0xC000 → w &&& 0x01C0 ≠ 0x01C0 → decode w = .jmp (regAt w 6)) ∧
  (∀ w : Word, w &&& 0xF1C0 = 0xC1C0 → decode w = .ret) ∧
  (∀ (base : Reg) (s : State), ∃ t, exec (.jmp base) s = .next t ∧ Jumps (s.reg base) s t) ∧
  ∀ s : State, ∃ t, exec .ret s = .next t ∧ Jumps (s.reg 7) s t ∧ exec (.jmp 7) s = .next t

/-- R152: JSR: R7 gets the incremented `pc`, then the 11-bit offset is added to it. -/
def Obligations.JumpToSubroutine : Prop :=
  (∀ w : Word, w &&& 0xF800 = 0x4800 → decode w = .jsr (w.setWidth 11)) ∧
  ∀ (off : BitVec 11) (s : State), ∃ t, exec (.jsr off) s = .next t ∧ Calls (s.pc + signed off) s t

/-- R153: JSRR: R7 is written first, so with BaseR = 7 the target is the return address itself, the
spec's decision D12 (log 19). -/
def Obligations.JumpToSubroutineRegister : Prop :=
  (∀ w : Word, w &&& 0xF800 = 0x4000 → decode w = .jsrr (regAt w 6)) ∧
  ∀ (base : Reg) (s : State), ∃ t, exec (.jsrr base) s = .next t ∧
    Calls (if base = 7 then s.pc else s.reg base) s t

/-! ## TRAP and the illegal opcodes -/

/-- R160: TRAP with a service vector does what that vector's service does (the rows GETC .. HALT), whatever
`ir[11:8]` holds. -/
def Obligations.TrapSelectsService : Prop :=
  (∀ s, exec (.trap 0x20) s = exec .getc s) ∧ (∀ s, exec (.trap 0x21) s = exec .out s) ∧
  (∀ s, exec (.trap 0x22) s = exec .puts s) ∧ (∀ s, exec (.trap 0x23) s = exec .inp s) ∧
  (∀ s, exec (.trap 0x24) s = exec .putsp s) ∧ (∀ s, exec (.trap 0x25) s = exec .halt s) ∧
  ∀ w : Word, w &&& 0xF000 = 0xF000 → ∀ s, exec (decode w) s = exec (.trap (w.setWidth 8)) s

/-- R162: GETC takes the next byte into R0 with a zero high byte, without echo and without the flags; on an
ended input it raises (the spec's decision D5, log 12), on an open input where nothing ever arrives it does not
complete (U8, log 6). The console's form is the model's (log 2), and on an input without end the byte is whatever the
environment's free value is (log 25). -/
def Obligations.GetcReadsOneByte : Prop :=
  (∀ w : Word, w &&& 0xF0FF = 0xF020 → decode w = .getc) ∧
  ∀ s : State,
    (∀ k rest, s.console.keys = k :: rest → ∃ t, exec .getc s = .next t ∧ TrapFrame s t ∧
      t.reg 0 = byteWord k ∧ t.mem = s.mem ∧ t.run = s.run ∧ t.fault = s.fault ∧ t.out = s.out ∧
      t.console = { s.console with keys := rest }) ∧
    (∀ b, s.console.keys = [] → s.console.tail = .endless b → ∃ t, exec .getc s = .next t ∧
      TrapFrame s t ∧ t.reg 0 = byteWord b ∧ t.mem = s.mem ∧ KeepsRest s t) ∧
    (∀ c, s.console.keys = [] → s.console.tail = .stream c → ∃ t, exec .getc s = .next t ∧ TrapFrame s t ∧
      t.reg 0 = byteWord c.byte ∧ t.mem = s.mem ∧ t.run = s.run ∧ t.fault = s.fault ∧ t.out = s.out ∧
      t.console = { s.console with tail := .stream (c.next Config.nonZeroBytes) }) ∧
    (s.console.keys = [] → s.console.tail = .ended → ∃ t, exec .getc s = .next t ∧
      TrapRaises .consoleInputEnd s t ∧ t.out = s.out) ∧
    (s.console.keys = [] → s.console.tail = .silent → exec .getc s = .fault .consoleWait)

/-- R163: OUT writes the low byte of R0. -/
def Obligations.OutWritesLowByte : Prop :=
  (∀ w : Word, w &&& 0xF0FF = 0xF021 → decode w = .out) ∧
  ∀ s : State, ∃ t, exec .out s = .next t ∧ TrapKeeps s t ∧ t.console = s.console ∧
    t.out = s.out ++ [loByte (s.reg 0)]

/-- PUTS on a string that KBSR is no part of (R164): the low byte of each non-zero word, in order, up to the
first zero word, and R0 unchanged. The walk may wrap at 0xFFFF. The least case of the next statement. -/
def Obligations.PutsWritesString : Prop :=
  (∀ w : Word, w &&& 0xF0FF = 0xF022 → decode w = .puts) ∧
  ∀ (s : State) (ws : List Word), StringAt s (s.reg 0) (ws ++ [0x0000]) → (∀ w ∈ ws, w ≠ 0x0000) →
    ∃ t, exec .puts s = .next t ∧ TrapKeeps s t ∧ t.console = s.console ∧
      t.out = s.out ++ ws.map loByte

/-- R164, every case: PUTS ends in `t` exactly when the loop of the rule, run for as long as it takes, ends
in `t`; and when the loop never ends the step never completes. In particular the model's bound on the walk
cuts no string short (log 7). A string word at KBSR is a gateway read, the spec's decision D8 (log 15). -/
def Obligations.PutsIsTheLoop : Prop :=
  (∀ w : Word, w &&& 0xF0FF = 0xF022 → decode w = .puts) ∧
  ∀ s : State, ∃ s1, TrapKeeps s s1 ∧ s1.console = s.console ∧ s1.out = s.out ∧
    (∀ t, exec .puts s = .next t ↔ PutsLoop (s.reg 0) s1 t) ∧
    (exec .puts s = .fault .endlessString ↔ ∀ t, ¬ PutsLoop (s.reg 0) s1 t)

/-- R165: IN writes the 19 prompt bytes, takes one byte, echoes it and puts it in R0 with a zero high byte;
on an ended input the prompt has been written and R0 is unchanged. The spec's decisions D5 and D9 (logs 12, 16);
the wait and the console's form are the model's (logs 6, 2), the bytes of an input without end are free (log 25). -/
def Obligations.InPromptsAndEchoes : Prop :=
  (∀ w : Word, w &&& 0xF0FF = 0xF023 → decode w = .inp) ∧
  ∀ s : State,
    let text : List Byte := "Enter a character: ".toList.map fun c => BitVec.ofNat 8 c.toNat
    (∀ k rest, s.console.keys = k :: rest → ∃ t, exec .inp s = .next t ∧ TrapFrame s t ∧
      t.reg 0 = byteWord k ∧ t.mem = s.mem ∧ t.run = s.run ∧ t.fault = s.fault ∧
      t.out = s.out ++ text ++ [k] ∧ t.console = { s.console with keys := rest }) ∧
    (∀ b, s.console.keys = [] → s.console.tail = .endless b → ∃ t, exec .inp s = .next t ∧
      TrapFrame s t ∧ t.reg 0 = byteWord b ∧ t.mem = s.mem ∧ t.run = s.run ∧ t.fault = s.fault ∧
      t.out = s.out ++ text ++ [b] ∧ t.console = s.console) ∧
    (∀ c, s.console.keys = [] → s.console.tail = .stream c → ∃ t, exec .inp s = .next t ∧
      TrapFrame s t ∧ t.reg 0 = byteWord c.byte ∧ t.mem = s.mem ∧ t.run = s.run ∧ t.fault = s.fault ∧
      t.out = s.out ++ text ++ [c.byte] ∧
      t.console = { s.console with tail := .stream (c.next Config.nonZeroBytes) }) ∧
    (s.console.keys = [] → s.console.tail = .ended → ∃ t, exec .inp s = .next t ∧
      TrapRaises .consoleInputEnd s t ∧ t.out = s.out ++ text) ∧
    (s.console.keys = [] → s.console.tail = .silent → exec .inp s = .fault .consoleWait)

/-- PUTSP on a string that KBSR is no part of (R166): two characters a word, low byte first; the last word
either is zero or has a zero high byte, and then its low byte is written. A zero low byte of another
word is written too, the spec's decision D22 (log 21). -/
def Obligations.PutspWritesPackedString : Prop :=
  (∀ w : Word, w &&& 0xF0FF = 0xF024 → decode w = .putsp) ∧
  ∀ (s : State) (ws : List Word) (last : Word), StringAt s (s.reg 0) (ws ++ [last]) →
    (∀ w ∈ ws, hiByte w ≠ 0) → hiByte last = 0 →
    ∃ t, exec .putsp s = .next t ∧ TrapKeeps s t ∧ t.console = s.console ∧
      t.out = s.out ++ ws.flatMap (fun w => [loByte w, hiByte w]) ++
        (if last = 0x0000 then [] else [loByte last])

/-- R166, every case: PUTSP ends in `t` exactly when the loop of the rule ends in `t`, and does not complete
exactly when the loop never ends (logs 7, 15, 21). There is no state of the second kind: see PutspAlwaysEnds. -/
def Obligations.PutspIsTheLoop : Prop :=
  (∀ w : Word, w &&& 0xF0FF = 0xF024 → decode w = .putsp) ∧
  ∀ s : State, ∃ s1, TrapKeeps s s1 ∧ s1.console = s.console ∧ s1.out = s.out ∧
    (∀ t, exec .putsp s = .next t ↔ PutspLoop (s.reg 0) s1 t) ∧
    (exec .putsp s = .fault .endlessString ↔ ∀ t, ¬ PutspLoop (s.reg 0) s1 t)

/-- R167: HALT writes "HALT" and a newline, clears `run` and completes normally; it is the last step, and the
normal end of a run where no fault stood. -/
def Obligations.HaltStopsTheLoop : Prop :=
  (∀ w : Word, w &&& 0xF0FF = 0xF025 → decode w = .halt) ∧
  ∀ s : State, ∃ t, exec .halt s = .next t ∧ TrapFrame s t ∧ t.reg 0 = s.reg 0 ∧ t.mem = s.mem ∧
    t.fault = s.fault ∧ t.console = s.console ∧ t.run = false ∧
    t.out = s.out ++ "HALT\n".toList.map (fun c => BitVec.ofNat 8 c.toNat) ∧
    (s.fault = none → HaltedNormally t) ∧ ∀ u, step t ≠ .next u

/-- R168: TRAP with any other vector writes R7 and raises `UnknownTrapVector` with the 8-bit vector; nothing
else changes. That it faults is the spec's decision D4 (log 11). -/
def Obligations.UnknownVectorRaises : Prop :=
  ∀ w : Word, w &&& 0xF000 = 0xF000 → ((w.toNat % 256 < 0x20) ∨ (0x25 < w.toNat % 256)) → ∀ s : State,
    decode w = .trap (w.setWidth 8) ∧ ∃ t, exec (.trap (w.setWidth 8)) s = .next t ∧
      TrapRaises (.unknownTrapVector (w.setWidth 8)) s t ∧ t.out = s.out

/-- R169, R170: RTI and RES raise `IllegalOpcode` with the instruction word, whatever its low 12 bits; no
register, no flag and no memory cell is written. -/
def Obligations.IllegalOpcodesRaise : Prop :=
  (∀ w : Word, w &&& 0xF000 = 0x8000 → decode w = .rti (w.setWidth 12)) ∧
  (∀ w : Word, w &&& 0xF000 = 0xD000 → decode w = .res (w.setWidth 12)) ∧
  (∀ (w : Word) (s : State), w &&& 0xF000 = 0x8000 →
    exec (.rti (w.setWidth 12)) s = .next { s with fault := some (.illegalOpcode w) }) ∧
  (∀ (w : Word) (s : State), w &&& 0xF000 = 0xD000 →
    exec (.res (w.setWidth 12)) s = .next { s with fault := some (.illegalOpcode w) }) ∧
  ∀ low : BitVec 12, (∃ w : Word, w &&& 0xF000 = 0x8000 ∧ w.setWidth 12 = low) ∧
    ∃ w : Word, w &&& 0xF000 = 0xD000 ∧ w.setWidth 12 = low

/-! ## The gateway and the console -/

/-- R51: a write stores into the one cell at every address, 0xFE00 and 0xFE02 included: no poll, nothing to the
console, nothing raised. -/
def Obligations.WriteIsPlainStore : Prop :=
  ∀ (a v : Word) (s : State), StoresWord a v s (memWrite a v s)

/-- R52: a read of any address but 0xFE00 returns the cell and changes nothing; a read of 0xFE00 polls, and with
a key takes it, making KBSR 0x8000 and KBDR the key with a zero high byte; with none it makes KBSR zero; if the
console read raises, neither cell is written. The spec's decisions D9 and D5 (logs 16, 12). -/
def Obligations.GatewayRead : Prop :=
  ∀ s : State,
    (∀ a : Word, a ≠ 0xFE00 → memRead a s = .done (s.mem.wordAt a) s) ∧
    (∀ s1, consolePoll s = (false, s1) → ∃ t, memRead 0xFE00 s = .done 0x0000 t ∧
      StoresWord 0xFE00 0x0000 s1 t) ∧
    (∀ s1 s2 k, consolePoll s = (true, s1) → consoleRead s1 = .done k s2 →
      ∃ t, memRead 0xFE00 s = .done 0x8000 t ∧ t.mem.wordAt 0xFE00 = 0x8000 ∧
        StoresWord 0xFE02 (byteWord k) { s2 with mem := s2.mem.setWord 0xFE00 0x8000 } t ∧
        ∀ a : Word, a ≠ 0xFE00 → a ≠ 0xFE02 → t.mem.wordAt a = s.mem.wordAt a) ∧
    (∀ s1 s2, consolePoll s = (true, s1) → consoleRead s1 = .raised s2 →
      memRead 0xFE00 s = .raised s2 ∧ s2.mem = s.mem ∧ s2.fault = some .consoleInputEnd)

/-- A read of KBSR returns only 0x8000 or 0x0000, never what was stored there, and is the value KBSR then holds
(R53 a); every gateway read completes or raises, so it never waits (R61, R66). -/
def Obligations.KeyboardStatusRead : Prop :=
  (∀ (s t : State) (w : Word), memRead 0xFE00 s = .done w t →
    (w = 0x8000 ∨ w = 0x0000) ∧ t.mem.wordAt 0xFE00 = w ∧
    (w = 0x0000 → t.mem.wordAt 0xFE02 = s.mem.wordAt 0xFE02 ∧ t.console.keys = s.console.keys ∧
      t.console.tail = s.console.tail)) ∧
  ∀ (a : Word) (s : State), (∃ w t, memRead a s = .done w t) ∨
    (a = 0xFE00 ∧ ∃ t, memRead a s = .raised t ∧ t.fault = some .consoleInputEnd)

/-- R61: a poll takes no byte and changes nothing of the core; after `true` the read does not wait; and with a
byte ready the environment may answer either way (the spec's decision D19), by a listed answer or, without any bound
on how often, by its free value. The form of the environment is the model's (logs 2, 8, 25). -/
def Obligations.PollIsNonBlocking : Prop :=
  ∀ s : State,
    (∀ b s1, consolePoll s = (b, s1) → s1.console.keys = s.console.keys ∧
      s1.console.tail = s.console.tail ∧ { s1 with console := s.console } = s) ∧
    (∀ s1, consolePoll s = (true, s1) → ∀ r, consoleRead s1 ≠ .stuck r) ∧
    (∀ (answer : Bool) (k : Byte) (rest : List Byte) (later : List Bool),
      s.console.keys = k :: rest → s.console.polls = answer :: later →
      ∃ s1, consolePoll s = (answer, s1) ∧ s1.console = { s.console with polls := later }) ∧
    (∀ (c : Cursor) (k : Byte) (rest : List Byte),
      s.console.keys = k :: rest → s.console.polls = [] → s.console.pollTail = .free c →
      ∃ s1, consolePoll s = (c.answer, s1) ∧
        s1.console = { s.console with pollTail := .free (c.next Config.trueAnswers) })

/-- R65: the deterministic console: with no listed and no free answers and an input that ends after the keys, a poll
answers whether the list is non-empty, a read takes the head, and on the empty list it raises. The console's form
is the model's (log 2). -/
def Obligations.DeterministicConsole : Prop :=
  ∀ s : State, s.console.polls = [] → s.console.pollTail = .readiness → s.console.tail = .ended →
    consolePoll s = (decide (s.console.keys ≠ []), s) ∧
    (∀ k rest, s.console.keys = k :: rest →
      consoleRead s = .done k { s with console := { s.console with keys := rest } }) ∧
    (s.console.keys = [] → consoleRead s = .raised { s with fault := some .consoleInputEnd })

/-! ## The step -/

/-- R228: when the run loop goes on and `pc` is not KBSR, the step is the meaning of the instruction the word
at `pc` decodes to, in the state with `pc` incremented, and that instruction is well formed. -/
def Obligations.StepRunsDecodedInstruction : Prop :=
  ∀ s : State, Live s → s.pc ≠ 0xFE00 →
    WellFormed (decode (s.mem.wordAt s.pc)) = true ∧
    step s = exec (decode (s.mem.wordAt s.pc)) { s with pc := s.pc + 1 }

/-- R228: in general the fetch is a gateway read at `pc`: its word is decoded and run with `pc` incremented modulo
2^16, and if it raises the step ends there with `pc` not incremented. -/
def Obligations.FetchThroughGateway : Prop :=
  ∀ s : State, Live s →
    (∀ ir s1, memRead s.pc s = .done ir s1 → s1.pc = s.pc ∧
      step s = exec (decode ir) { s1 with pc := s.pc + 1 }) ∧
    (∀ s1, memRead s.pc s = .raised s1 → step s = .next s1 ∧ s1.pc = s.pc)

/-- R236: a fetch from 0xFE00 polls the keyboard: with no key the word is an untaken branch, with a key it is
RTI and faults; no stored word is ever fetched there. The raise of an ended input is the spec's decision D5 (log 12). -/
def Obligations.FetchFromKeyboardStatus : Prop :=
  ∀ s t : State, Live s → s.pc = 0xFE00 → step s = .next t →
    t.reg = s.reg ∧ t.cond = s.cond ∧ t.out = s.out ∧
    ((t.pc = 0xFE01 ∧ t.fault = none ∧ t.mem.wordAt 0xFE00 = 0x0000) ∨
      (t.pc = 0xFE01 ∧ t.fault = some (.illegalOpcode 0x8000) ∧ t.mem.wordAt 0xFE00 = 0x8000) ∨
      (t.pc = 0xFE00 ∧ t.fault = some .consoleInputEnd ∧ t.mem = s.mem))

/-- R227: the run loop takes a step only while `run = 1` and `fault` is empty; a halted or faulted machine takes
none, and says which (R196: a faulted state is kept distinct from a halted one). The two names are the model's (log 4). -/
def Obligations.StoppedMachineTakesNoStep : Prop :=
  ∀ s : State,
    (∀ c, s.fault = some c → step s = .fault (.faulted c)) ∧
    (s.fault = none → s.run = false → step s = .fault .halted) ∧
    (∀ t, step s = .next t → Live s)

/-! ## Whole-machine rules -/

/-- R27: exactly the seven flag-writing instructions write `cond`; every other leaves it unchanged, GETC, IN, JSR
and TRAP included. A flag writer leaves the flag of its destination's new value, unless its load raised. -/
def Obligations.FlagsFollowDestination : Prop :=
  ∀ (i : Instr) (s t : State), exec i s = .next t →
    (destOf i = none → t.cond = s.cond) ∧
    (∀ dr, destOf i = some dr → t.cond = signFlag (t.reg dr) ∨
      (t.fault = some .consoleInputEnd ∧ t.cond = s.cond ∧ t.reg dr = s.reg dr))

/-- No instruction writes a register its rule does not name (R20, R23): DR by the seven, R7 by JSR, JSRR and
TRAP, R0 by GETC and IN. -/
def Obligations.OnlyNamedRegistersWritten : Prop :=
  ∀ (i : Instr) (s t : State) (r : Reg), exec i s = .next t → ¬ mayWrite i r → t.reg r = s.reg r

/-- Only BR, JMP, RET, JSR and JSRR write `pc`; TRAP in particular does not (R24, R160). -/
def Obligations.OnlyTransfersWritePc : Prop :=
  ∀ (i : Instr) (s t : State), exec i s = .next t → ¬ writesPc i → t.pc = s.pc

/-- Memory changes only by a store or by a gateway read of KBSR (R20, R51, R53): an instruction that neither
stores nor reads leaves memory alone, and one that only reads leaves every word but KBSR and KBDR. -/
def Obligations.MemoryChangesOnlyByStoreOrPoll : Prop :=
  ∀ (i : Instr) (s t : State), exec i s = .next t → ¬ isStore i →
    (¬ readsMemory i → t.mem = s.mem) ∧
    ∀ a : Word, a ≠ 0xFE00 → a ≠ 0xFE02 → t.mem.wordAt a = s.mem.wordAt a

/-- `run` is cleared by the HALT service and by nothing else, and nothing sets it (R30, R39 c, R201): a step that
ends with `run = 0` fetched a TRAP with vector 0x25. -/
def Obligations.OnlyHaltClearsRun : Prop :=
  ∀ s t : State, step s = .next t → t.run = false →
    s.pc ≠ 0xFE00 ∧ s.mem.wordAt s.pc &&& 0xF0FF = 0xF025 ∧ t.reg 7 = s.pc + 1 ∧ t.pc = s.pc + 1

/-- The fault cell is written only by `raise` (R31, R190, R191): an instruction that always raises does; one that
reads neither memory nor the console leaves the cell alone; any other can leave only `ConsoleInputEnd`. -/
def Obligations.OnlyRaiseWritesFault : Prop :=
  ∀ (i : Instr) (s t : State), exec i s = .next t →
    (alwaysRaises i → t.fault ≠ none ∧ t.fault ≠ some .consoleInputEnd) ∧
    (¬ alwaysRaises i → t.fault = s.fault ∨
      (t.fault = some .consoleInputEnd ∧ (readsMemory i ∨ readsConsole i)))

/-- Bytes are taken in the order the console received them, each once, polls are answered in order, and bytes
written stay written (R37, R62): the console after a step is the one before it with some number of bytes taken, one
after another, and some number of polls answered; and an instruction that writes nothing to the display appends
nothing. -/
def Obligations.ConsoleInOrder : Prop :=
  (∀ s t : State, step s = .next t →
    (∃ taken polled : Nat, t.console = Console.afterPoll^[polled] (Console.afterKey^[taken] s.console)) ∧
      s.out <+: t.out) ∧
  ∀ (i : Instr) (s t : State), exec i s = .next t → ¬ writesConsole i → t.out = s.out

/-- No program can read what it has written (R37: "no instruction reads it"): two machines that differ only in
what has been written before take the same step, and append the same bytes. -/
def Obligations.OutputIsNeverRead : Prop :=
  ∀ (s : State) (before : List Byte),
    step { s with out := before ++ s.out } = mapNext (fun t => { t with out := before ++ t.out }) (step s)

/-- The console reaches the core only by answering its requests (R193): an instruction that reads neither
memory nor the console does the same whatever the keyboard holds, and leaves it as it is. -/
def Obligations.KeyboardCannotInterrupt : Prop :=
  ∀ (i : Instr) (s : State) (con : Console), ¬ readsMemory i → ¬ readsConsole i →
    exec i { s with console := con } = mapNext (fun t => { t with console := con }) (exec i s)

/-- A stored word is executed by the very next step (R73, R238): after `ST SR, #0` the machine runs the word that
was in SR, with no fence or delay. -/
def Obligations.StoredWordRunsNext : Prop :=
  ∀ (s : State) (sr : Reg), Live s → s.pc ≠ 0xFE00 → s.pc + 1 ≠ 0xFE00 →
    s.mem.wordAt s.pc = encode (.st sr 0) →
    ∃ t, step s = .next t ∧ t.pc = s.pc + 1 ∧
      step t = exec (decode (s.reg sr)) { t with pc := s.pc + 2 }

/-- PUTSP completes in every state: its walk reaches KBSR within 65,536 words, and there it finds no key and ends, or
raises, or finds a key, whose zero high byte in KBDR ends it two words on (R166, R52; decisions D8, D9, logs 15, 16). -/
def Obligations.PutspAlwaysEnds : Prop :=
  ∀ s : State, ∃ t, exec .putsp s = .next t
end

