-- ==== Sys2Proof/Laws/Encoding.lean ====
section
/-! SUPPORT. The bits of an encoded word, format by format (`30_encoding.md` R94): which field bit `i` of the
word comes from. The encoder's words are rewritten with these and never taken apart again. -/

namespace Sys2Proof.Laws

theorem bits_op_12 (op : BitVec 4) (a : BitVec 12) (i : Nat) :
    BitVec.getLsbD (w := 16) (op ++ a) i =
      if i < 12 then a.getLsbD i
      else op.getLsbD (i - 12) := by
  refine BitVec.getLsbD_append.trans ?_
  split_ifs <;> rfl

theorem bits_op_3_9 (op : BitVec 4) (a : BitVec 3) (b : BitVec 9) (i : Nat) :
    BitVec.getLsbD (w := 16) (op ++ a ++ b) i =
      if i < 9 then b.getLsbD i
      else if i < 12 then a.getLsbD (i - 9)
      else op.getLsbD (i - 12) := by
  refine BitVec.getLsbD_append.trans ?_
  simp only [BitVec.getLsbD_append]
  split_ifs <;> first | rfl | omega

theorem bits_op_3_3_6 (op : BitVec 4) (a : BitVec 3) (b : BitVec 3) (c : BitVec 6) (i : Nat) :
    BitVec.getLsbD (w := 16) (op ++ a ++ b ++ c) i =
      if i < 6 then c.getLsbD i
      else if i < 9 then b.getLsbD (i - 6)
      else if i < 12 then a.getLsbD (i - 9)
      else op.getLsbD (i - 12) := by
  refine BitVec.getLsbD_append.trans ?_
  simp only [BitVec.getLsbD_append]
  split_ifs <;> first | rfl | omega

theorem bits_op_3_3_1_5 (op : BitVec 4) (a : BitVec 3) (b : BitVec 3) (c : BitVec 1) (d : BitVec 5) (i : Nat) :
    BitVec.getLsbD (w := 16) (op ++ a ++ b ++ c ++ d) i =
      if i < 5 then d.getLsbD i
      else if i < 6 then c.getLsbD (i - 5)
      else if i < 9 then b.getLsbD (i - 6)
      else if i < 12 then a.getLsbD (i - 9)
      else op.getLsbD (i - 12) := by
  refine BitVec.getLsbD_append.trans ?_
  simp only [BitVec.getLsbD_append]
  split_ifs <;> first | rfl | omega

theorem bits_op_3_3_1_2_3 (op : BitVec 4) (a : BitVec 3) (b : BitVec 3) (c : BitVec 1) (d : BitVec 2) (e : BitVec 3) (i : Nat) :
    BitVec.getLsbD (w := 16) (op ++ a ++ b ++ c ++ d ++ e) i =
      if i < 3 then e.getLsbD i
      else if i < 5 then d.getLsbD (i - 3)
      else if i < 6 then c.getLsbD (i - 5)
      else if i < 9 then b.getLsbD (i - 6)
      else if i < 12 then a.getLsbD (i - 9)
      else op.getLsbD (i - 12) := by
  refine BitVec.getLsbD_append.trans ?_
  simp only [BitVec.getLsbD_append]
  split_ifs <;> first | rfl | omega

theorem bits_op_1_11 (op : BitVec 4) (a : BitVec 1) (b : BitVec 11) (i : Nat) :
    BitVec.getLsbD (w := 16) (op ++ a ++ b) i =
      if i < 11 then b.getLsbD i
      else if i < 12 then a.getLsbD (i - 11)
      else op.getLsbD (i - 12) := by
  refine BitVec.getLsbD_append.trans ?_
  simp only [BitVec.getLsbD_append]
  split_ifs <;> first | rfl | omega

theorem bits_op_1_2_3_6 (op : BitVec 4) (a : BitVec 1) (b : BitVec 2) (c : BitVec 3) (d : BitVec 6) (i : Nat) :
    BitVec.getLsbD (w := 16) (op ++ a ++ b ++ c ++ d) i =
      if i < 6 then d.getLsbD i
      else if i < 9 then c.getLsbD (i - 6)
      else if i < 11 then b.getLsbD (i - 9)
      else if i < 12 then a.getLsbD (i - 11)
      else op.getLsbD (i - 12) := by
  refine BitVec.getLsbD_append.trans ?_
  simp only [BitVec.getLsbD_append]
  split_ifs <;> first | rfl | omega

theorem bits_op_1_1_1_9 (op : BitVec 4) (a : BitVec 1) (b : BitVec 1) (c : BitVec 1) (d : BitVec 9) (i : Nat) :
    BitVec.getLsbD (w := 16) (op ++ a ++ b ++ c ++ d) i =
      if i < 9 then d.getLsbD i
      else if i < 10 then c.getLsbD (i - 9)
      else if i < 11 then b.getLsbD (i - 10)
      else if i < 12 then a.getLsbD (i - 11)
      else op.getLsbD (i - 12) := by
  refine BitVec.getLsbD_append.trans ?_
  simp only [BitVec.getLsbD_append]
  split_ifs <;> first | rfl | omega

theorem bits_op_4_8 (op : BitVec 4) (a : BitVec 4) (b : BitVec 8) (i : Nat) :
    BitVec.getLsbD (w := 16) (op ++ a ++ b) i =
      if i < 8 then b.getLsbD i
      else if i < 12 then a.getLsbD (i - 8)
      else op.getLsbD (i - 12) := by
  refine BitVec.getLsbD_append.trans ?_
  simp only [BitVec.getLsbD_append]
  split_ifs <;> first | rfl | omega

end Sys2Proof.Laws
end

