-- ==== Sys2Proof/Laws/Memory.lean ====
section
/-! SUPPORT. The laws of memory: read after write, and that every memory operation keeps the canonical form.
The read laws hold of every list of cells, canonical or not. -/

namespace Sys2Proof.Laws
open Sys2Proof.Machine

/-! ## The two bytes of a Word -/

@[simp] theorem wordOfBytes_bytes (w : Word) : wordOfBytes (highByte w) (lowByte w) = w := by
  apply BitVec.eq_of_getLsbD_eq
  intro i hi
  simp only [wordOfBytes, highByte, lowByte, BitVec.getLsbD_append, BitVec.getLsbD_extractLsb']
  by_cases h : i < 8
  · simp [h]
  · simp [h, show i - 8 < 8 by omega, show 8 + (i - 8) = i by omega]

theorem getLsbD_wordOfBytes (hi lo : Byte) (i : Nat) :
    (wordOfBytes hi lo).getLsbD i = if i < 8 then lo.getLsbD i else hi.getLsbD (i - 8) :=
  BitVec.getLsbD_append

@[simp] theorem highByte_wordOfBytes (hi lo : Byte) : highByte (wordOfBytes hi lo) = hi := by
  apply BitVec.eq_of_getLsbD_eq
  intro i h
  rw [highByte, BitVec.getLsbD_extractLsb', getLsbD_wordOfBytes]
  simp [h]

@[simp] theorem lowByte_wordOfBytes (hi lo : Byte) : lowByte (wordOfBytes hi lo) = lo := by
  apply BitVec.eq_of_getLsbD_eq
  intro i h
  rw [lowByte, BitVec.getLsbD_extractLsb', getLsbD_wordOfBytes]
  simp [h]

@[simp] theorem lowByte_zext8 (b : Byte) : lowByte (zext8 b) = b := by
  apply BitVec.eq_of_getLsbD_eq
  intro i hi
  simp [lowByte, zext8, hi]
  omega

@[simp] theorem highByte_zext8 (b : Byte) : highByte (zext8 b) = 0 := by
  apply BitVec.eq_of_getLsbD_eq
  intro i hi
  simp [highByte, zext8]

theorem swap16_eq (w : Word) : swap16 w = wordOfBytes (lowByte w) (highByte w) := by
  apply BitVec.eq_of_getLsbD_eq
  intro i hi
  simp only [swap16, getLsbD_wordOfBytes, highByte, lowByte, BitVec.getLsbD_extractLsb',
    BitVec.getLsbD_or, BitVec.getLsbD_shiftLeft, BitVec.getLsbD_ushiftRight]
  by_cases h : i < 8
  · simp [h]
  · have : w.getLsbD (8 + i) = false := BitVec.getLsbD_of_ge w _ (by omega)
    simp [h, hi, this, show i - 8 < 8 by omega]

/-- R225: "Byte-swap is an involution". -/
theorem swap16_swap16 (w : Word) : swap16 (swap16 w) = w := by
  simp [swap16_eq]

/-! ## Cells -/

@[simp] theorem byteAt_nil (k : Nat) : Memory.byteAt [] k = 0 := rfl

theorem byteAt_cons (c : Host.Cell) (m : Memory) (k : Nat) :
    Memory.byteAt (c :: m) k = if c.1 = k then c.2 else Memory.byteAt m k := rfl

theorem byteAt_insertCell_self (c : Host.Cell) (m : Memory) (h : ∀ d ∈ m, d.1 ≠ c.1) :
    Memory.byteAt (Memory.insertCell c m) c.1 = c.2 := by
  induction m with
  | nil => simp [Memory.insertCell, byteAt_cons]
  | cons d m ih =>
    have hd : d.1 ≠ c.1 := h d (by simp)
    rw [Memory.insertCell]
    split
    · simp [byteAt_cons]
    · simp [byteAt_cons, hd, ih fun e he => h e (List.mem_cons_of_mem d he)]

theorem byteAt_insertCell_ne (c : Host.Cell) (m : Memory) {k : Nat} (h : c.1 ≠ k) :
    Memory.byteAt (Memory.insertCell c m) k = Memory.byteAt m k := by
  induction m with
  | nil => simp [Memory.insertCell, byteAt_cons, h]
  | cons d m ih =>
    rw [Memory.insertCell]
    split
    · simp [byteAt_cons, h]
    · simp [byteAt_cons, ih]

theorem byteAt_filter_self (m : Memory) (k : Nat) :
    Memory.byteAt (m.filter (fun c => c.1 ≠ k)) k = 0 := by
  induction m with
  | nil => rfl
  | cons d m ih =>
    by_cases h : d.1 = k
    · simpa [List.filter_cons, h] using ih
    · simpa [List.filter_cons, h, byteAt_cons] using ih

theorem byteAt_filter_ne (m : Memory) {j k : Nat} (h : k ≠ j) :
    Memory.byteAt (m.filter (fun c => c.1 ≠ j)) k = Memory.byteAt m k := by
  induction m with
  | nil => rfl
  | cons d m ih =>
    by_cases hd : d.1 = j
    · have : d.1 ≠ k := by omega
      simpa [List.filter_cons, hd, byteAt_cons, Ne.symm h] using ih
    · simp only [ne_eq, hd, not_false_eq_true, decide_true, List.filter_cons_of_pos, byteAt_cons]
      simp only [ne_eq] at ih
      rw [ih]

@[simp] theorem byteAt_setByte_self (m : Memory) (k : Nat) (b : Byte) : (m.setByte k b).byteAt k = b := by
  unfold Memory.setByte
  by_cases hb : b = 0
  · simpa [hb] using byteAt_filter_self m k
  · simp only [hb, if_false]
    exact byteAt_insertCell_self (k, b) _ (by simp)

theorem byteAt_setByte_ne (m : Memory) {j k : Nat} (b : Byte) (h : k ≠ j) :
    (m.setByte j b).byteAt k = m.byteAt k := by
  unfold Memory.setByte
  by_cases hb : b = 0
  · simpa [hb] using byteAt_filter_ne m h
  · simp only [hb, if_false]
    rw [byteAt_insertCell_ne _ _ (Ne.symm h), byteAt_filter_ne m h]

/-! ## Words -/

@[simp] theorem wordAt_nil (a : Word) : Memory.wordAt [] a = 0 := by
  simp only [Memory.wordAt, byteAt_nil]; rfl

@[simp] theorem wordAt_setWord_self (m : Memory) (a v : Word) : (m.setWord a v).wordAt a = v := by
  simp only [Memory.wordAt, Memory.setWord, byteAt_setByte_self]
  rw [byteAt_setByte_ne _ _ (by omega), byteAt_setByte_self, wordOfBytes_bytes]

theorem wordAt_setWord_ne (m : Memory) {a b : Word} (v : Word) (h : b ≠ a) :
    (m.setWord a v).wordAt b = m.wordAt b := by
  have hne : b.toNat ≠ a.toNat := fun e => h (BitVec.eq_of_toNat_eq e)
  simp only [Memory.wordAt, Memory.setWord]
  rw [byteAt_setByte_ne _ _ (by omega), byteAt_setByte_ne _ _ (by omega),
    byteAt_setByte_ne _ _ (by omega), byteAt_setByte_ne _ _ (by omega)]

theorem wordAt_setWord (m : Memory) (a b v : Word) :
    (m.setWord a v).wordAt b = if b = a then v else m.wordAt b := by
  by_cases h : b = a
  · simp [h]
  · simp [h, wordAt_setWord_ne m v h]

/-! ## The canonical form -/

theorem mem_insertCell {c e : Host.Cell} {m : Memory} (h : e ∈ Memory.insertCell c m) : e = c ∨ e ∈ m := by
  induction m with
  | nil => simpa [Memory.insertCell] using h
  | cons d m ih =>
    rw [Memory.insertCell] at h
    split at h
    · simpa using h
    · rcases List.mem_cons.mp h with rfl | h
      · simp
      · rcases ih h with rfl | h <;> simp [*]

theorem insertCell_rising {c : Host.Cell} {m : Memory} (hm : m.Pairwise (fun c d => c.1 < d.1))
    (hc : ∀ d ∈ m, d.1 ≠ c.1) : (Memory.insertCell c m).Pairwise (fun c d => c.1 < d.1) := by
  induction m with
  | nil => simp [Memory.insertCell]
  | cons d m ih =>
    rw [List.pairwise_cons] at hm
    have hd : d.1 ≠ c.1 := hc d (by simp)
    rw [Memory.insertCell]
    split
    · next h =>
      refine List.pairwise_cons.mpr ⟨?_, List.pairwise_cons.mpr hm⟩
      intro e he
      rcases List.mem_cons.mp he with rfl | he
      · exact h
      · exact Nat.lt_trans h (hm.1 e he)
    · refine List.pairwise_cons.mpr ⟨?_, ih hm.2 fun e he => hc e (List.mem_cons_of_mem d he)⟩
      intro e he
      rcases mem_insertCell he with rfl | he
      · omega
      · exact hm.1 e he

/-- One byte store keeps the canonical form, inside the 65,536 Words. -/
theorem setByte_wf {m : Memory} (hm : m.wf) {k : Nat} (hk : k < 2 * Config.memWords) (b : Byte) :
    (m.setByte k b).wf := by
  obtain ⟨hrise, hcell⟩ := hm
  have hrest : (m.filter (fun c => c.1 ≠ k)).Pairwise (fun c d => c.1 < d.1) := hrise.filter _
  unfold Memory.setByte
  by_cases hb : b = 0
  · simp only [hb, if_true]
    exact ⟨hrest, fun c hc => hcell c (List.mem_of_mem_filter hc)⟩
  · simp only [hb, if_false]
    refine ⟨insertCell_rising hrest (by simp), ?_⟩
    intro c hc
    rcases mem_insertCell hc with rfl | hc
    · exact ⟨hb, hk⟩
    · exact hcell c (List.mem_of_mem_filter hc)

/-- A Word store keeps the canonical form. -/
theorem setWord_wf {m : Memory} (hm : m.wf) (a v : Word) : (m.setWord a v).wf := by
  have ha : a.toNat < 65536 := a.isLt
  exact setByte_wf (setByte_wf hm (by simp [Config.memWords]; omega) _) (by simp [Config.memWords]; omega) _

/-- Placing an image's words keeps the canonical form. -/
theorem placeWords_wf (ws : List Word) : ∀ {m : Memory} (a : Word), m.wf → (placeWords a ws m).wf := by
  induction ws with
  | nil => intro m a hm; exact hm
  | cons w ws ih => intro m a hm; exact ih (a + 1) (setWord_wf hm a w)

/-- So does loading one. -/
theorem loadImage_wf {bytes : List Byte} {m m' : Memory} (hm : m.wf) (h : loadImage bytes m = some m') :
    m'.wf := by
  simp only [loadImage, Option.map_eq_some_iff] at h
  obtain ⟨im, -, rfl⟩ := h
  exact placeWords_wf _ _ hm

/-- So does loading several. -/
theorem loadImages_wf (bs : List (List Byte)) : ∀ {m m' : Memory}, m.wf → loadImages bs m = some m' → m'.wf := by
  induction bs with
  | nil => intro m m' hm h; cases h; exact hm
  | cons b bs ih =>
    intro m m' hm h
    obtain ⟨m1, h1, h2⟩ := Option.bind_eq_some_iff.mp h
    exact ih (loadImage_wf hm h1) h2

/-- Reset memory lists nothing. -/
theorem reset_wf : State.reset.mem.wf := by decide

end Sys2Proof.Laws
end

