-- ==== Sys2Proof/Laws/State.lean ====
section
/-! SUPPORT. One lemma per field per update, so that no later proof unfolds a record update. -/

namespace Sys2Proof.Laws
open Sys2Proof.Machine

/-! ## Reading a register (R12, R21) -/

@[simp] theorem setReg_reg_self (s : State) (i : Reg) (v : Word) : (s.setReg i v).reg i = v := by
  simp only [State.reg, State.setReg, Vector.get_eq_getElem]
  exact Vector.getElem_set_self i.isLt

theorem setReg_reg_ne (s : State) {i j : Reg} (v : Word) (h : j ≠ i) : (s.setReg i v).reg j = s.reg j := by
  have hv : i.val ≠ j.val := fun e => h (Fin.ext e.symm)
  simp only [State.reg, State.setReg, Vector.get_eq_getElem]
  exact Vector.getElem_set_ne i.isLt j.isLt hv

theorem setReg_reg (s : State) (i j : Reg) (v : Word) :
    (s.setReg i v).reg j = if j = i then v else s.reg j := by
  by_cases h : j = i
  · simp [h]
  · simp [h, setReg_reg_ne s v h]

@[simp] theorem reset_reg (r : Reg) : State.reset.reg r = 0 := by
  simp [State.reg, State.reset, Vector.get_eq_getElem]

/-! ## setReg -/

@[simp] theorem setReg_mem (s : State) (i : Reg) (v : Word) : (s.setReg i v).mem = s.mem := rfl
@[simp] theorem setReg_pc (s : State) (i : Reg) (v : Word) : (s.setReg i v).pc = s.pc := rfl
@[simp] theorem setReg_cond (s : State) (i : Reg) (v : Word) : (s.setReg i v).cond = s.cond := rfl
@[simp] theorem setReg_run (s : State) (i : Reg) (v : Word) : (s.setReg i v).run = s.run := rfl
@[simp] theorem setReg_fault (s : State) (i : Reg) (v : Word) : (s.setReg i v).fault = s.fault := rfl
@[simp] theorem setReg_console (s : State) (i : Reg) (v : Word) : (s.setReg i v).console = s.console := rfl
@[simp] theorem setReg_out (s : State) (i : Reg) (v : Word) : (s.setReg i v).out = s.out := rfl

/-! ## setPc -/

@[simp] theorem setPc_mem (s : State) (v : Word) : (s.setPc v).mem = s.mem := rfl
@[simp] theorem setPc_regs (s : State) (v : Word) : (s.setPc v).regs = s.regs := rfl
@[simp] theorem setPc_pc (s : State) (v : Word) : (s.setPc v).pc = v := rfl
@[simp] theorem setPc_cond (s : State) (v : Word) : (s.setPc v).cond = s.cond := rfl
@[simp] theorem setPc_run (s : State) (v : Word) : (s.setPc v).run = s.run := rfl
@[simp] theorem setPc_fault (s : State) (v : Word) : (s.setPc v).fault = s.fault := rfl
@[simp] theorem setPc_console (s : State) (v : Word) : (s.setPc v).console = s.console := rfl
@[simp] theorem setPc_out (s : State) (v : Word) : (s.setPc v).out = s.out := rfl
@[simp] theorem setPc_reg (s : State) (v : Word) (r : Reg) : (s.setPc v).reg r = s.reg r := rfl

/-! ## raise -/

@[simp] theorem raise_mem (s : State) (c : Cause) : (raise c s).mem = s.mem := rfl
@[simp] theorem raise_regs (s : State) (c : Cause) : (raise c s).regs = s.regs := rfl
@[simp] theorem raise_pc (s : State) (c : Cause) : (raise c s).pc = s.pc := rfl
@[simp] theorem raise_cond (s : State) (c : Cause) : (raise c s).cond = s.cond := rfl
@[simp] theorem raise_run (s : State) (c : Cause) : (raise c s).run = s.run := rfl
@[simp] theorem raise_fault (s : State) (c : Cause) : (raise c s).fault = some c := rfl
@[simp] theorem raise_console (s : State) (c : Cause) : (raise c s).console = s.console := rfl
@[simp] theorem raise_out (s : State) (c : Cause) : (raise c s).out = s.out := rfl
@[simp] theorem raise_reg (s : State) (c : Cause) (r : Reg) : (raise c s).reg r = s.reg r := rfl

/-! ## consoleWrite -/

@[simp] theorem consoleWrite_mem (s : State) (b : Byte) : (consoleWrite b s).mem = s.mem := rfl
@[simp] theorem consoleWrite_regs (s : State) (b : Byte) : (consoleWrite b s).regs = s.regs := rfl
@[simp] theorem consoleWrite_pc (s : State) (b : Byte) : (consoleWrite b s).pc = s.pc := rfl
@[simp] theorem consoleWrite_cond (s : State) (b : Byte) : (consoleWrite b s).cond = s.cond := rfl
@[simp] theorem consoleWrite_run (s : State) (b : Byte) : (consoleWrite b s).run = s.run := rfl
@[simp] theorem consoleWrite_fault (s : State) (b : Byte) : (consoleWrite b s).fault = s.fault := rfl
@[simp] theorem consoleWrite_console (s : State) (b : Byte) : (consoleWrite b s).console = s.console := rfl
@[simp] theorem consoleWrite_out (s : State) (b : Byte) : (consoleWrite b s).out = s.out ++ [b] := rfl
@[simp] theorem consoleWrite_reg (s : State) (b : Byte) (r : Reg) : (consoleWrite b s).reg r = s.reg r := rfl

/-! ## storeWord -/

@[simp] theorem storeWord_mem (s : State) (a v : Word) : (storeWord a v s).mem = s.mem.setWord a v := rfl
@[simp] theorem storeWord_regs (s : State) (a v : Word) : (storeWord a v s).regs = s.regs := rfl
@[simp] theorem storeWord_pc (s : State) (a v : Word) : (storeWord a v s).pc = s.pc := rfl
@[simp] theorem storeWord_cond (s : State) (a v : Word) : (storeWord a v s).cond = s.cond := rfl
@[simp] theorem storeWord_run (s : State) (a v : Word) : (storeWord a v s).run = s.run := rfl
@[simp] theorem storeWord_fault (s : State) (a v : Word) : (storeWord a v s).fault = s.fault := rfl
@[simp] theorem storeWord_console (s : State) (a v : Word) : (storeWord a v s).console = s.console := rfl
@[simp] theorem storeWord_out (s : State) (a v : Word) : (storeWord a v s).out = s.out := rfl
@[simp] theorem storeWord_reg (s : State) (a v : Word) (r : Reg) : (storeWord a v s).reg r = s.reg r := rfl

/-! ## memWrite -/

@[simp] theorem memWrite_mem (s : State) (a v : Word) : (memWrite a v s).mem = s.mem.setWord a v := rfl
@[simp] theorem memWrite_regs (s : State) (a v : Word) : (memWrite a v s).regs = s.regs := rfl
@[simp] theorem memWrite_pc (s : State) (a v : Word) : (memWrite a v s).pc = s.pc := rfl
@[simp] theorem memWrite_cond (s : State) (a v : Word) : (memWrite a v s).cond = s.cond := rfl
@[simp] theorem memWrite_run (s : State) (a v : Word) : (memWrite a v s).run = s.run := rfl
@[simp] theorem memWrite_fault (s : State) (a v : Word) : (memWrite a v s).fault = s.fault := rfl
@[simp] theorem memWrite_console (s : State) (a v : Word) : (memWrite a v s).console = s.console := rfl
@[simp] theorem memWrite_out (s : State) (a v : Word) : (memWrite a v s).out = s.out := rfl
@[simp] theorem memWrite_reg (s : State) (a v : Word) (r : Reg) : (memWrite a v s).reg r = s.reg r := rfl

/-! ## setcc -/

@[simp] theorem setcc_mem (s : State) (i : Reg) : (setcc i s).mem = s.mem := rfl
@[simp] theorem setcc_regs (s : State) (i : Reg) : (setcc i s).regs = s.regs := rfl
@[simp] theorem setcc_pc (s : State) (i : Reg) : (setcc i s).pc = s.pc := rfl
@[simp] theorem setcc_cond (s : State) (i : Reg) : (setcc i s).cond = flagsOf (s.reg i) := rfl
@[simp] theorem setcc_run (s : State) (i : Reg) : (setcc i s).run = s.run := rfl
@[simp] theorem setcc_fault (s : State) (i : Reg) : (setcc i s).fault = s.fault := rfl
@[simp] theorem setcc_console (s : State) (i : Reg) : (setcc i s).console = s.console := rfl
@[simp] theorem setcc_out (s : State) (i : Reg) : (setcc i s).out = s.out := rfl
@[simp] theorem setcc_reg (s : State) (i : Reg) (r : Reg) : (setcc i s).reg r = s.reg r := rfl

/-! ## clearRun -/

@[simp] theorem clearRun_mem (s : State) : (clearRun s).mem = s.mem := rfl
@[simp] theorem clearRun_regs (s : State) : (clearRun s).regs = s.regs := rfl
@[simp] theorem clearRun_pc (s : State) : (clearRun s).pc = s.pc := rfl
@[simp] theorem clearRun_cond (s : State) : (clearRun s).cond = s.cond := rfl
@[simp] theorem clearRun_run (s : State) : (clearRun s).run = false := rfl
@[simp] theorem clearRun_fault (s : State) : (clearRun s).fault = s.fault := rfl
@[simp] theorem clearRun_console (s : State) : (clearRun s).console = s.console := rfl
@[simp] theorem clearRun_out (s : State) : (clearRun s).out = s.out := rfl
@[simp] theorem clearRun_reg (s : State) (r : Reg) : (clearRun s).reg r = s.reg r := rfl

/-! ## linkR7 -/

@[simp] theorem linkR7_mem (s : State) : (linkR7 s).mem = s.mem := rfl
@[simp] theorem linkR7_pc (s : State) : (linkR7 s).pc = s.pc := rfl
@[simp] theorem linkR7_cond (s : State) : (linkR7 s).cond = s.cond := rfl
@[simp] theorem linkR7_run (s : State) : (linkR7 s).run = s.run := rfl
@[simp] theorem linkR7_fault (s : State) : (linkR7 s).fault = s.fault := rfl
@[simp] theorem linkR7_console (s : State) : (linkR7 s).console = s.console := rfl
@[simp] theorem linkR7_out (s : State) : (linkR7 s).out = s.out := rfl

/-! ## writeDest -/

@[simp] theorem writeDest_mem (s : State) (i : Reg) (v : Word) : (writeDest i v s).mem = s.mem := rfl
@[simp] theorem writeDest_pc (s : State) (i : Reg) (v : Word) : (writeDest i v s).pc = s.pc := rfl
@[simp] theorem writeDest_cond (s : State) (i : Reg) (v : Word) : (writeDest i v s).cond = flagsOf v := by
  simp [writeDest, setcc]
@[simp] theorem writeDest_run (s : State) (i : Reg) (v : Word) : (writeDest i v s).run = s.run := rfl
@[simp] theorem writeDest_fault (s : State) (i : Reg) (v : Word) : (writeDest i v s).fault = s.fault := rfl
@[simp] theorem writeDest_console (s : State) (i : Reg) (v : Word) : (writeDest i v s).console = s.console := rfl
@[simp] theorem writeDest_out (s : State) (i : Reg) (v : Word) : (writeDest i v s).out = s.out := rfl

@[simp] theorem consoleFlush_eq (s : State) : consoleFlush s = s := rfl

@[simp] theorem writeDest_reg_self (s : State) (i : Reg) (v : Word) : (writeDest i v s).reg i = v :=
  setReg_reg_self s i v

theorem writeDest_reg_ne (s : State) {i j : Reg} (v : Word) (h : j ≠ i) :
    (writeDest i v s).reg j = s.reg j :=
  setReg_reg_ne s v h

@[simp] theorem linkR7_reg_seven (s : State) : (linkR7 s).reg 7 = s.pc := setReg_reg_self s 7 s.pc

theorem linkR7_reg_ne (s : State) {r : Reg} (h : r ≠ 7) : (linkR7 s).reg r = s.reg r :=
  setReg_reg_ne s s.pc h

@[simp] theorem linkR7_reg_zero (s : State) : (linkR7 s).reg 0 = s.reg 0 :=
  linkR7_reg_ne s (by decide)

/-! ## Several bytes written -/

/-- Writing several bytes appends them, in order (R63), and changes nothing else. -/
theorem consoleWriteAll_eq (bs : List Byte) : ∀ s : State,
    consoleWriteAll bs s = { s with out := s.out ++ bs } := by
  induction bs with
  | nil => intro s; simp [consoleWriteAll]
  | cons b bs ih =>
    intro s
    have := ih (consoleWrite b s)
    simp only [consoleWriteAll, List.foldl_cons] at this ⊢
    rw [this]
    simp [consoleWrite]

/-! ## State equality, field by field -/

theorem state_ext {s t : State} (hmem : s.mem = t.mem) (hregs : s.regs = t.regs) (hpc : s.pc = t.pc)
    (hcond : s.cond = t.cond) (hrun : s.run = t.run) (hfault : s.fault = t.fault)
    (hconsole : s.console = t.console) (hout : s.out = t.out) : s = t := by
  cases s; cases t; simp_all

end Sys2Proof.Laws
end

