-- ==== Sys2Proof/Laws/Ops.lean ====
section
/-! SUPPORT. One lemma for each shared operation that says once everything it can do. -/

namespace Sys2Proof.Laws
open Sys2Proof.Machine

/-! ## Sequencing -/

@[simp] theorem andThen_done {α β : Type} (v : α) (s : State) (k : α → State → Eff β) :
    (Eff.done v s).andThen k = k v s := rfl

@[simp] theorem andThen_raised {α β : Type} (s : State) (k : α → State → Eff β) :
    (Eff.raised s : Eff α).andThen k = .raised s := rfl

@[simp] theorem andThen_stuck {α β : Type} (r : Fault) (k : α → State → Eff β) :
    (Eff.stuck r : Eff α).andThen k = .stuck r := rfl

@[simp] theorem outcome_done {α : Type} (v : α) (s : State) : (Eff.done v s).outcome = .next s := rfl

@[simp] theorem outcome_raised {α : Type} (s : State) : (Eff.raised s : Eff α).outcome = .next s := rfl

@[simp] theorem outcome_stuck {α : Type} (r : Fault) : (Eff.stuck r : Eff α).outcome = .fault r := rfl

/-- The state an operation leaves, if it completes or raises. -/
def Leaves {α : Type} (e : Eff α) (t : State) : Prop := (∃ v, e = .done v t) ∨ e = .raised t

theorem leaves_of_outcome {α : Type} {e : Eff α} {t : State} (h : e.outcome = .next t) : Leaves e t := by
  cases e with
  | done v s => simp at h; exact .inl ⟨v, by rw [h]⟩
  | raised s => simp at h; exact .inr (by rw [h])
  | stuck r => simp at h

@[simp] theorem leaves_done {α : Type} (v : α) (s t : State) : Leaves (Eff.done v s) t ↔ t = s := by
  simp [Leaves, eq_comm]

@[simp] theorem leaves_raised {α : Type} (s t : State) : Leaves (Eff.raised s : Eff α) t ↔ t = s := by
  simp [Leaves, eq_comm]

@[simp] theorem leaves_stuck {α : Type} (r : Fault) (t : State) : ¬ Leaves (Eff.stuck r : Eff α) t := by
  simp [Leaves]

/-- What a sequence leaves was left by its second part, or by a raise in its first. -/
theorem leaves_andThen {α β : Type} {e : Eff α} {k : α → State → Eff β} {t : State}
    (h : Leaves (e.andThen k) t) : (∃ v s, e = .done v s ∧ Leaves (k v s) t) ∨ e = .raised t := by
  cases e with
  | done v s => exact .inl ⟨v, s, rfl, h⟩
  | raised s => rcases h with ⟨v, h⟩ | h <;> simp_all
  | stuck r => rcases h with ⟨v, h⟩ | h <;> simp at h

/-! ## The console port -/

/-- The two requests touch different parts of the console. -/
theorem afterKey_afterPoll (c : Console) : c.afterKey.afterPoll = c.afterPoll.afterKey := by
  rcases c with ⟨keys, tail, polls, pollTail⟩
  cases keys <;> cases tail <;> cases polls <;> cases pollTail <;> rfl

/-- A console after `m` bytes have been taken and `n` polls answered. -/
def ConsoleLater (c d : Console) : Prop := ∃ m n, d = Console.afterPoll^[n] (Console.afterKey^[m] c)

theorem ConsoleLater.refl (c : Console) : ConsoleLater c c := ⟨0, 0, rfl⟩

theorem ConsoleLater.key (c : Console) : ConsoleLater c c.afterKey := ⟨1, 0, rfl⟩

theorem ConsoleLater.poll (c : Console) : ConsoleLater c c.afterPoll := ⟨0, 1, rfl⟩

theorem ConsoleLater.trans {c d e : Console} (h : ConsoleLater c d) (h' : ConsoleLater d e) :
    ConsoleLater c e := by
  obtain ⟨m, n, rfl⟩ := h
  obtain ⟨m', n', rfl⟩ := h'
  have hc : Function.Commute Console.afterKey Console.afterPoll := fun c => (afterKey_afterPoll c).symm
  refine ⟨m' + m, n' + n, ?_⟩
  rw [Function.iterate_add_apply, Function.iterate_add_apply, (hc.iterate_iterate m' n).eq]

@[simp] theorem afterPoll_keys (c : Console) : c.afterPoll.keys = c.keys := by
  rcases c with ⟨keys, tail, polls, pollTail⟩
  cases polls <;> cases pollTail <;> rfl

@[simp] theorem afterPoll_tail (c : Console) : c.afterPoll.tail = c.tail := by
  rcases c with ⟨keys, tail, polls, pollTail⟩
  cases polls <;> cases pollTail <;> rfl

@[simp] theorem afterKey_polls (c : Console) : c.afterKey.polls = c.polls := by
  rcases c with ⟨keys, tail, polls, pollTail⟩
  cases keys <;> cases tail <;> rfl

@[simp] theorem afterKey_pollTail (c : Console) : c.afterKey.pollTail = c.pollTail := by
  rcases c with ⟨keys, tail, polls, pollTail⟩
  cases keys <;> cases tail <;> rfl

theorem ready_iff (c : Console) :
    c.ready = true ↔ c.keys ≠ [] ∨ (∃ b, c.tail = .endless b) ∨ ∃ k, c.tail = .stream k := by
  rcases c with ⟨keys, tail, polls, pollTail⟩
  cases keys <;> cases tail <;> simp [Console.ready]

/-- Inside a block the next place is one nearer its end. -/
theorem cursor_next_left {len : Nat → Option Nat} {c : Cursor} (h : c.left len ≠ some 0) :
    (c.left len = none ∧ (c.next len).left len = none) ∨
      ∃ n, c.left len = some (n + 1) ∧ (c.next len).left len = some n := by
  have hn : (c.next len).left len = (len c.block).map (· - (c.pos + 1)) := by
    unfold Cursor.next
    rw [if_neg h]
    rfl
  rw [hn]
  unfold Cursor.left at h ⊢
  cases hl : len c.block with
  | none => exact .inl ⟨rfl, rfl⟩
  | some g =>
    rw [hl] at h
    have hg : g - c.pos ≠ 0 := fun e => h (congrArg some e)
    refine .inr ⟨g - c.pos - 1, ?_, ?_⟩
    · simp only [Option.map_some, Option.some.injEq]; omega
    · simp only [Option.map_some, Option.some.injEq]; omega

theorem cursor_byte_ne_zero {c : Cursor} (h : c.byte ≠ 0) : c.left Config.nonZeroBytes ≠ some 0 := by
  intro e
  exact h (by rw [Cursor.byte, if_pos e])

theorem cursor_byte_of_left {c : Cursor} (h : c.left Config.nonZeroBytes ≠ some 0) : c.byte ≠ 0 := by
  rw [Cursor.byte, if_neg h]
  intro e
  have := congrArg BitVec.toNat e
  have hlt := (Config.nonZeroByte c.block c.pos).isLt
  rw [BitVec.toNat_ofNat, Nat.mod_eq_of_lt (by omega)] at this
  exact Nat.succ_ne_zero _ this

/-! ### How often a walk can pass KBSR -/

/-- The part of `Console.passes` that reads use up. -/
def keyPasses (c : Console) : Nat := c.keys.length + c.tail.nonZeroKeys.getD 0

/-- The part of `Console.passes` that polls use up. -/
def pollPasses (c : Console) : Nat := c.polls.length + c.pollTail.trueAnswers.getD 0

/-- Non-zero keys without end and nothing before them. -/
def KeysUnending (c : Console) : Prop := c.keys = [] ∧ c.tail.nonZeroKeys = none

/-- `true` answers without end and nothing before them. -/
def PollsUnending (c : Console) : Prop := c.polls = [] ∧ c.pollTail.trueAnswers = none

theorem passes_eq (c : Console) : c.passes = keyPasses c + pollPasses c := rfl

/-- A poll that answers `true` uses up a pass, or there is no bound on them and it stays so. -/
theorem afterPoll_passes {c : Console} (h : c.answer = true) :
    pollPasses c.afterPoll < pollPasses c ∨ (PollsUnending c ∧ PollsUnending c.afterPoll) := by
  rcases c with ⟨keys, tail, polls, pollTail⟩
  cases polls with
  | cons a rest => exact .inl (by simp [pollPasses, Console.afterPoll])
  | nil =>
    cases pollTail with
    | readiness => exact .inr ⟨⟨rfl, rfl⟩, ⟨rfl, rfl⟩⟩
    | free k =>
      have hk : k.left Config.trueAnswers ≠ some 0 := by simpa [Console.answer, Cursor.answer] using h
      rcases cursor_next_left hk with ⟨h0, h1⟩ | ⟨n, h0, h1⟩
      · exact .inr ⟨⟨rfl, h0⟩, ⟨rfl, h1⟩⟩
      · refine .inl ?_
        simp [pollPasses, Console.afterPoll, PollTail.trueAnswers, h0, h1]

/-! ### The two requests -/

/-- Everything a console read can do (R62). A non-zero key uses up a pass, or there is no bound on them. -/
theorem consoleRead_cases (s : State) :
    (∃ k, consoleRead s = .done k { s with console := s.console.afterKey } ∧ s.console.ready = true ∧
      (k ≠ 0 → keyPasses s.console.afterKey < keyPasses s.console ∨
        (KeysUnending s.console ∧ KeysUnending s.console.afterKey))) ∨
    (s.console.keys = [] ∧ s.console.tail = .ended ∧ consoleRead s = .raised (raise .consoleInputEnd s)) ∨
    (s.console.keys = [] ∧ s.console.tail = .silent ∧ consoleRead s = .stuck .consoleWait) := by
  rcases s with ⟨mem, regs, pc, cond, run, fault, ⟨keys, tail, polls, pollTail⟩, out⟩
  cases keys with
  | cons k rest => exact .inl ⟨k, rfl, rfl, fun _ => .inl (by simp [keyPasses, Console.afterKey])⟩
  | nil =>
    cases tail with
    | ended => exact .inr (.inl ⟨rfl, rfl, rfl⟩)
    | silent => exact .inr (.inr ⟨rfl, rfl, rfl⟩)
    | endless b =>
      refine .inl ⟨b, rfl, rfl, fun hb => .inr ?_⟩
      have hn : (InputTail.endless b).nonZeroKeys = none := if_neg hb
      exact ⟨⟨rfl, hn⟩, ⟨rfl, hn⟩⟩
    | stream c =>
      refine .inl ⟨c.byte, rfl, rfl, fun hb => ?_⟩
      rcases cursor_next_left (cursor_byte_ne_zero hb) with ⟨h0, h1⟩ | ⟨n, h0, h1⟩
      · exact .inr ⟨⟨rfl, h0⟩, ⟨rfl, h1⟩⟩
      · refine .inl ?_
        simp [keyPasses, Console.afterKey, InputTail.nonZeroKeys, h0, h1]

/-- With non-zero keys without end a read takes one of them. -/
theorem consoleRead_unending {s : State} (h : KeysUnending s.console) :
    ∃ k, k ≠ 0 ∧ consoleRead s = .done k { s with console := s.console.afterKey } := by
  rcases s with ⟨mem, regs, pc, cond, run, fault, ⟨keys, tail, polls, pollTail⟩, out⟩
  obtain ⟨hk, ht⟩ := h
  cases hk
  cases tail with
  | ended => cases ht
  | silent => cases ht
  | endless b =>
    have hb : b ≠ 0 := fun e => by rw [e] at ht; cases ht
    exact ⟨b, hb, rfl⟩
  | stream c => exact ⟨c.byte, cursor_byte_of_left (fun e => by rw [show c.left _ = none from ht] at e; cases e), rfl⟩

/-! ## The gateway -/

theorem memRead_plain (s : State) {a : Word} (h : a ≠ kbsr) : memRead a s = .done (s.mem.wordAt a) s := by
  simp [memRead, h]

theorem kbsr_ne_kbdr : kbsr ≠ kbdr := by decide

/-- What a read of 0xFE00 that finds the key `k` leaves: KBSR ready, KBDR the key. -/
def gotKey (k : Byte) (con : Console) (s : State) : State :=
  { s with mem := (s.mem.setWord kbsr keyReady).setWord kbdr (zext8 k), console := con }

/-- Everything a read of 0xFE00 can do (R52, R53): find no key, find one, or raise. A non-zero key uses up a
pass, or there is no bound on them. -/
theorem memRead_kbsr_cases (s : State) :
    (memRead kbsr s = .done 0 { s with mem := s.mem.setWord kbsr 0, console := s.console.afterPoll }) ∨
    (∃ k, memRead kbsr s = .done keyReady (gotKey k s.console.afterPoll.afterKey s) ∧
      (k ≠ 0 → s.console.afterPoll.afterKey.passes < s.console.passes ∨
        ((KeysUnending s.console ∧ PollsUnending s.console) ∧
          KeysUnending s.console.afterPoll.afterKey ∧ PollsUnending s.console.afterPoll.afterKey))) ∨
    (memRead kbsr s = .raised { s with console := s.console.afterPoll, fault := some .consoleInputEnd }) := by
  have hword : ∀ (m : Memory) (k : Byte),
      ((m.setWord kbsr keyReady).setWord kbdr (zext8 k)).wordAt kbsr = keyReady := by
    intro m k
    rw [wordAt_setWord_ne _ _ kbsr_ne_kbdr, wordAt_setWord_self]
  cases hb : (s.console.answer && s.console.mayAnswerTrue) with
  | false => exact .inl (by simp [memRead, pollKeyboard, consolePoll, hb, storeWord])
  | true =>
    have ⟨ha, hm⟩ := Bool.and_eq_true_iff.mp hb
    rcases consoleRead_cases { s with console := s.console.afterPoll } with
      ⟨k, hread, -, hk⟩ | ⟨-, -, hread⟩ | ⟨hk, ht, -⟩
    · refine .inr (.inl ⟨k, by simp [memRead, pollKeyboard, consolePoll, hb, hread, storeWord, hword, gotKey],
        fun h0 => ?_⟩)
      have ek : keyPasses s.console.afterPoll = keyPasses s.console := by simp [keyPasses]
      have ep : pollPasses s.console.afterPoll.afterKey = pollPasses s.console.afterPoll := by simp [pollPasses]
      have hkey := hk h0
      simp only [ek] at hkey
      rw [passes_eq, passes_eq, ep]
      rcases hkey with hkey | ⟨hku, hku'⟩ <;> rcases afterPoll_passes ha with hp | ⟨hpu, hpu'⟩
      · exact .inl (by omega)
      · have e1 : pollPasses s.console = 0 := by simp [pollPasses, hpu.1, hpu.2]
        have e2 : pollPasses s.console.afterPoll = 0 := by simp [pollPasses, hpu'.1, hpu'.2]
        exact .inl (by omega)
      · have e1 : keyPasses s.console.afterPoll.afterKey = 0 := by simp [keyPasses, hku'.1, hku'.2]
        exact .inl (by omega)
      · refine .inr ⟨⟨?_, hpu⟩, hku', ?_⟩
        · simpa [KeysUnending] using hku
        · simpa [PollsUnending] using hpu'
    · exact .inr (.inr (by simp [memRead, pollKeyboard, consolePoll, hb, hread, raise]))
    · have hk' : s.console.keys = [] := by simpa using hk
      have ht' : s.console.tail = .silent := by simpa using ht
      simp [Console.mayAnswerTrue, Console.ready, hk', ht'] at hm

theorem ready_of_unending {c : Console} (h : KeysUnending c) : c.ready = true := by
  rcases c with ⟨keys, tail, polls, pollTail⟩
  obtain ⟨hk, ht⟩ := h
  cases hk
  cases tail with
  | ended => cases ht
  | silent => cases ht
  | endless b => rfl
  | stream c => rfl

theorem answer_of_unending {c : Console} (hk : KeysUnending c) (hp : PollsUnending c) : c.answer = true := by
  have hr := ready_of_unending hk
  rcases c with ⟨keys, tail, polls, pollTail⟩
  obtain ⟨h0, ht⟩ := hp
  cases h0
  cases pollTail with
  | readiness => exact hr
  | free k =>
    have hl : k.left Config.trueAnswers = none := ht
    simp [Console.answer, Cursor.answer, hl]

/-- Where neither the keys nor the `true` answers have a bound, every read of 0xFE00 finds a non-zero key and it
stays so. -/
theorem memRead_kbsr_unending {s : State} (hk : KeysUnending s.console) (hp : PollsUnending s.console) :
    ∃ k, k ≠ 0 ∧ memRead kbsr s = .done keyReady (gotKey k s.console.afterPoll.afterKey s) ∧
      KeysUnending s.console.afterPoll.afterKey ∧ PollsUnending s.console.afterPoll.afterKey := by
  have hb : (s.console.answer && s.console.mayAnswerTrue) = true := by
    simp [answer_of_unending hk hp, Console.mayAnswerTrue, ready_of_unending hk]
  have hk' : KeysUnending s.console.afterPoll := by simpa [KeysUnending] using hk
  obtain ⟨k, h0, hread⟩ := consoleRead_unending (s := { s with console := s.console.afterPoll }) hk'
  have e : memRead kbsr s = .done keyReady (gotKey k s.console.afterPoll.afterKey s) := by
    have hword : ((s.mem.setWord kbsr keyReady).setWord kbdr (zext8 k)).wordAt kbsr = keyReady := by
      rw [wordAt_setWord_ne _ _ kbsr_ne_kbdr, wordAt_setWord_self]
    simp [memRead, pollKeyboard, consolePoll, hb, hread, storeWord, hword, gotKey]
  rcases memRead_kbsr_cases s with e' | ⟨k', e', h⟩ | e' <;> rw [e] at e'
  · injection e' with e1 _
    exact absurd e1 (by decide)
  · injection e' with _ e2
    have hw := congrArg (fun t => t.mem.wordAt kbdr) e2
    simp only [gotKey, wordAt_setWord_self] at hw
    have hk0 : k' ≠ 0 := by
      rintro rfl
      apply h0
      have := congrArg lowByte hw
      simpa using this
    rcases h hk0 with hlt | ⟨-, h1, h2⟩
    · have z : s.console.passes = 0 := by simp [passes_eq, keyPasses, pollPasses, hk.1, hk.2, hp.1, hp.2]
      omega
    · exact ⟨k, h0, e, h1, h2⟩
  · cases e'

/-! ## What reading leaves alone -/

/-- What any gateway or console read, and any byte written, leaves of the state before it. -/
structure ReadKeeps (s t : State) : Prop where
  regs : t.regs = s.regs
  pc : t.pc = s.pc
  cond : t.cond = s.cond
  run : t.run = s.run
  fault : t.fault = s.fault ∨ t.fault = some .consoleInputEnd
  word : ∀ a, a ≠ kbsr → a ≠ kbdr → t.mem.wordAt a = s.mem.wordAt a
  wf : s.mem.wf → t.mem.wf
  console : ConsoleLater s.console t.console
  out : s.out <+: t.out

theorem ReadKeeps.refl (s : State) : ReadKeeps s s :=
  ⟨rfl, rfl, rfl, rfl, .inl rfl, fun _ _ _ => rfl, id, ConsoleLater.refl _, List.prefix_rfl⟩

theorem ReadKeeps.trans {s t u : State} (h : ReadKeeps s t) (h' : ReadKeeps t u) : ReadKeeps s u where
  regs := h'.regs.trans h.regs
  pc := h'.pc.trans h.pc
  cond := h'.cond.trans h.cond
  run := h'.run.trans h.run
  fault := by
    rcases h'.fault with e | e
    · rw [e]; exact h.fault
    · exact .inr e
  word a h1 h2 := (h'.word a h1 h2).trans (h.word a h1 h2)
  wf hm := h'.wf (h.wf hm)
  console := h.console.trans h'.console
  out := h.out.trans h'.out

theorem consoleWrite_keeps (b : Byte) (s : State) : ReadKeeps s (consoleWrite b s) :=
  ⟨rfl, rfl, rfl, rfl, .inl rfl, fun _ _ _ => rfl, id, ConsoleLater.refl _, ⟨[b], rfl⟩⟩

/-- Whatever a console read does, it leaves all but the console and, on a raise, the fault cell. -/
theorem consoleRead_keeps {s t : State} (h : Leaves (consoleRead s) t) : ReadKeeps s t := by
  rcases consoleRead_cases s with ⟨k, e, -, -⟩ | ⟨-, -, e⟩ | ⟨-, -, e⟩ <;> rw [e] at h
  · rw [(leaves_done _ _ _).mp h]
    exact ⟨rfl, rfl, rfl, rfl, .inl rfl, fun _ _ _ => rfl, id, ConsoleLater.key _, List.prefix_rfl⟩
  · rw [(leaves_raised _ _).mp h]
    exact ⟨rfl, rfl, rfl, rfl, .inr rfl, fun _ _ _ => rfl, id, ConsoleLater.refl _, List.prefix_rfl⟩
  · exact absurd h (leaves_stuck _ _)

theorem ReadKeeps.of_update (s : State) (m : Memory) (con : Console) (f : Option Cause)
    (hword : ∀ a, a ≠ kbsr → a ≠ kbdr → m.wordAt a = s.mem.wordAt a) (hwf : s.mem.wf → m.wf)
    (hcon : ConsoleLater s.console con) (hf : f = s.fault ∨ f = some .consoleInputEnd) :
    ReadKeeps s { s with mem := m, console := con, fault := f } :=
  ⟨rfl, rfl, rfl, rfl, hf, hword, hwf, hcon, List.prefix_rfl⟩

/-- Whatever a gateway read does, it leaves all but the console, KBSR and KBDR and, on a raise, the fault cell. -/
theorem memRead_keeps {a : Word} {s t : State} (h : Leaves (memRead a s) t) : ReadKeeps s t := by
  by_cases ha : a = kbsr
  · subst ha
    rcases memRead_kbsr_cases s with e | ⟨k, e, -⟩ | e <;> rw [e] at h
    · rw [(leaves_done _ _ _).mp h]
      exact ReadKeeps.of_update s _ _ s.fault (fun b hb _ => by rw [wordAt_setWord_ne _ _ hb])
        (fun hm => setWord_wf hm _ _) (ConsoleLater.poll _) (.inl rfl)
    · rw [(leaves_done _ _ _).mp h]
      exact ReadKeeps.of_update s _ _ s.fault
        (fun b hb hb' => by rw [wordAt_setWord_ne _ _ hb', wordAt_setWord_ne _ _ hb])
        (fun hm => setWord_wf (setWord_wf hm _ _) _ _)
        ((ConsoleLater.poll _).trans (ConsoleLater.key _)) (.inl rfl)
    · rw [(leaves_raised _ _).mp h]
      exact ReadKeeps.of_update s s.mem _ _ (fun _ _ _ => rfl) id (ConsoleLater.poll _) (.inr rfl)
  · rw [memRead_plain s ha, leaves_done] at h
    rw [h]
    exact ReadKeeps.refl _

/-- A gateway read always completes or raises: a poll that answers `true` is followed by a read that does not
wait (R61). -/
theorem memRead_not_stuck (a : Word) (s : State) (r : Fault) : memRead a s ≠ .stuck r := by
  by_cases ha : a = kbsr
  · subst ha
    rcases memRead_kbsr_cases s with e | ⟨k, e, -⟩ | e <;> simp [e]
  · simp [memRead_plain s ha]

/-! ## The string walks -/

/-- What a PUTS walk leaves alone (R164). -/
theorem putsWalk_keeps : ∀ (fuel : Nat) (a : Word) {s t : State}, Leaves (putsWalk fuel a s) t → ReadKeeps s t
  | 0, _, _, _, h => absurd h (leaves_stuck _ _)
  | fuel + 1, a, s, t, h => by
    rw [putsWalk] at h
    rcases leaves_andThen h with ⟨w, s1, e, h1⟩ | e
    · refine (memRead_keeps (.inl ⟨w, e⟩)).trans ?_
      by_cases hw : w = 0
      · simp only [hw, if_true, consoleFlush_eq] at h1
        rw [leaves_done] at h1
        subst h1
        exact ReadKeeps.refl _
      · simp only [hw, if_false] at h1
        exact (consoleWrite_keeps _ s1).trans (putsWalk_keeps fuel (a + 1) h1)
    · exact memRead_keeps (.inr e)

/-- What a PUTSP walk leaves alone (R166). -/
theorem putspWalk_keeps : ∀ (fuel : Nat) (a : Word) {s t : State}, Leaves (putspWalk fuel a s) t → ReadKeeps s t
  | 0, _, _, _, h => absurd h (leaves_stuck _ _)
  | fuel + 1, a, s, t, h => by
    rw [putspWalk] at h
    rcases leaves_andThen h with ⟨w, s1, e, h1⟩ | e
    · refine (memRead_keeps (.inl ⟨w, e⟩)).trans ?_
      by_cases hw : w = 0
      · simp only [hw, if_true, consoleFlush_eq] at h1
        rw [leaves_done] at h1
        subst h1
        exact ReadKeeps.refl _
      · simp only [hw, if_false] at h1
        by_cases hh : highByte w = 0
        · simp only [hh, if_true, consoleFlush_eq] at h1
          rw [leaves_done] at h1
          subst h1
          exact consoleWrite_keeps _ s1
        · simp only [hh, if_false] at h1
          exact ((consoleWrite_keeps _ s1).trans (consoleWrite_keeps _ _)).trans
            (putspWalk_keeps fuel (a + 1) h1)
    · exact memRead_keeps (.inr e)

/-! ## The destination register and the flags -/

/-- One flag results, in R13's order. -/
theorem flagsOf_cases (v : Word) :
    (v = 0 ∧ flagsOf v = flagZ) ∨ (v.getLsbD 15 = true ∧ flagsOf v = flagN) ∨
      (v ≠ 0 ∧ v.getLsbD 15 = false ∧ flagsOf v = flagP) := by
  unfold flagsOf
  by_cases h0 : v = 0
  · exact .inl ⟨h0, if_pos h0⟩
  · rw [if_neg h0]
    cases h : v.getLsbD 15
    · exact .inr (.inr ⟨h0, rfl, rfl⟩)
    · exact .inr (.inl ⟨rfl, rfl⟩)

/-- A load either wrote its destination over what the read left, or its read raised. -/
theorem loadInto_leaves {dr : Reg} {a : Word} {s t : State} (h : Leaves (loadInto dr a s) t) :
    (∃ v s1, memRead a s = .done v s1 ∧ t = writeDest dr v s1) ∨ memRead a s = .raised t := by
  rcases leaves_andThen h with ⟨v, s1, e, h1⟩ | e
  · rcases h1 with ⟨u, h1⟩ | h1 <;> cases h1
    exact .inl ⟨v, s1, e, rfl⟩
  · exact .inr e

/-! ## The step -/

/-- Everything a step that answers a next state can have done (R227, R228, R194). -/
theorem step_cases {s t : State} (h : step s = .next t) :
    s.fault = none ∧ s.run = true ∧
      ((∃ ir s1, memRead s.pc s = .done ir s1 ∧ exec (decode ir) (s1.setPc (s1.pc + 1)) = .next t) ∨
        memRead s.pc s = .raised t) := by
  unfold step at h
  cases hf : s.fault with
  | some c => simp [hf] at h
  | none =>
    cases hr : s.run with
    | false => simp [hf, hr] at h
    | true =>
      refine ⟨rfl, rfl, ?_⟩
      simp only [hf, hr, fetch] at h
      cases hm : memRead s.pc s with
      | done ir s1 => simp only [hm, andThen_done] at h; exact .inl ⟨ir, s1, rfl, h⟩
      | raised s1 => simp only [hm, andThen_raised] at h; cases h; exact .inr rfl
      | stuck r => simp [hm] at h

/-- Placing a word where the machine fetches makes it the very next instruction, from any state. -/
theorem step_withFetchWord (s : State) (w : Word) :
    step (s.withFetchWord 16 w.toNat) = exec (decode w)
      ((s.withFetchWord 16 w.toNat).setPc ((s.withFetchWord 16 w.toNat).pc + 1)) := by
  have hpc : (s.withFetchWord 16 w.toNat).pc ≠ kbsr := by
    simp only [State.withFetchWord]
    split
    · decide
    · assumption
  have hw : (s.withFetchWord 16 w.toNat).mem.wordAt (s.withFetchWord 16 w.toNat).pc = w := by
    have hmod : w.toNat % 2 ^ 16 = w.toNat := Nat.mod_eq_of_lt w.isLt
    simp only [State.withFetchWord, wordAt_setWord_self, hmod, BitVec.ofNat_toNat, BitVec.setWidth_eq]
  have hf : (s.withFetchWord 16 w.toNat).fault = none := rfl
  have hr : (s.withFetchWord 16 w.toNat).run = true := rfl
  unfold step
  simp only [hf, hr, fetch, memRead_plain _ hpc, andThen_done, hw]

end Sys2Proof.Laws
end

