-- ==== Sys2Proof/Laws/PerInstr.lean ====
section
/-! SUPPORT. The family RowMatch, one lemma per constructor: the encoded word of an instruction meets its row's
match under its row's mask (`30_encoding.md` R100: "a word `w` is the instruction when `w & mask = match`"). -/

/-- The instruction's canonical word is a word of its row of the opcode table. -/
def Sys2Proof.Laws.RowMatch.Statement (i : Sys2Proof.Instr) : Prop :=
  Sys2Proof.encode i &&& Sys2Proof.rowMask i = Sys2Proof.rowMatch i

namespace Sys2Proof.Laws.RowMatch

theorem br (n : Bool) (z : Bool) (p : Bool) (off : BitVec 9) : Statement (.br n z p off) := by
  simp only [Statement, encode, rowMask, rowMatch]
  apply BitVec.eq_of_getLsbD_eq
  intro i hi
  rw [BitVec.getLsbD_and, bits_op_1_1_1_9]
  interval_cases i <;> simp

theorem addReg (dr : Reg) (sr1 : Reg) (sr2 : Reg) : Statement (.addReg dr sr1 sr2) := by
  simp only [Statement, encode, rowMask, rowMatch]
  apply BitVec.eq_of_getLsbD_eq
  intro i hi
  rw [BitVec.getLsbD_and, bits_op_3_3_1_2_3]
  interval_cases i <;> simp

theorem addImm (dr : Reg) (sr1 : Reg) (imm5 : BitVec 5) : Statement (.addImm dr sr1 imm5) := by
  simp only [Statement, encode, rowMask, rowMatch]
  apply BitVec.eq_of_getLsbD_eq
  intro i hi
  rw [BitVec.getLsbD_and, bits_op_3_3_1_5]
  interval_cases i <;> simp

theorem ld (dr : Reg) (off : BitVec 9) : Statement (.ld dr off) := by
  simp only [Statement, encode, rowMask, rowMatch]
  apply BitVec.eq_of_getLsbD_eq
  intro i hi
  rw [BitVec.getLsbD_and, bits_op_3_9]
  interval_cases i <;> simp

theorem st (sr : Reg) (off : BitVec 9) : Statement (.st sr off) := by
  simp only [Statement, encode, rowMask, rowMatch]
  apply BitVec.eq_of_getLsbD_eq
  intro i hi
  rw [BitVec.getLsbD_and, bits_op_3_9]
  interval_cases i <;> simp

theorem jsr (off : BitVec 11) : Statement (.jsr off) := by
  simp only [Statement, encode, rowMask, rowMatch]
  apply BitVec.eq_of_getLsbD_eq
  intro i hi
  rw [BitVec.getLsbD_and, bits_op_1_11]
  interval_cases i <;> simp

theorem jsrr (base : Reg) : Statement (.jsrr base) := by
  simp only [Statement, encode, rowMask, rowMatch]
  apply BitVec.eq_of_getLsbD_eq
  intro i hi
  rw [BitVec.getLsbD_and, bits_op_1_2_3_6]
  interval_cases i <;> simp

theorem andReg (dr : Reg) (sr1 : Reg) (sr2 : Reg) : Statement (.andReg dr sr1 sr2) := by
  simp only [Statement, encode, rowMask, rowMatch]
  apply BitVec.eq_of_getLsbD_eq
  intro i hi
  rw [BitVec.getLsbD_and, bits_op_3_3_1_2_3]
  interval_cases i <;> simp

theorem andImm (dr : Reg) (sr1 : Reg) (imm5 : BitVec 5) : Statement (.andImm dr sr1 imm5) := by
  simp only [Statement, encode, rowMask, rowMatch]
  apply BitVec.eq_of_getLsbD_eq
  intro i hi
  rw [BitVec.getLsbD_and, bits_op_3_3_1_5]
  interval_cases i <;> simp

theorem ldr (dr : Reg) (base : Reg) (off : BitVec 6) : Statement (.ldr dr base off) := by
  simp only [Statement, encode, rowMask, rowMatch]
  apply BitVec.eq_of_getLsbD_eq
  intro i hi
  rw [BitVec.getLsbD_and, bits_op_3_3_6]
  interval_cases i <;> simp

theorem str (sr : Reg) (base : Reg) (off : BitVec 6) : Statement (.str sr base off) := by
  simp only [Statement, encode, rowMask, rowMatch]
  apply BitVec.eq_of_getLsbD_eq
  intro i hi
  rw [BitVec.getLsbD_and, bits_op_3_3_6]
  interval_cases i <;> simp

theorem rti (low : BitVec 12) : Statement (.rti low) := by
  simp only [Statement, encode, rowMask, rowMatch]
  apply BitVec.eq_of_getLsbD_eq
  intro i hi
  rw [BitVec.getLsbD_and, bits_op_12]
  interval_cases i <;> simp

theorem not (dr : Reg) (sr : Reg) : Statement (.not dr sr) := by
  simp only [Statement, encode, rowMask, rowMatch]
  apply BitVec.eq_of_getLsbD_eq
  intro i hi
  rw [BitVec.getLsbD_and, bits_op_3_3_6]
  interval_cases i <;> simp

theorem ldi (dr : Reg) (off : BitVec 9) : Statement (.ldi dr off) := by
  simp only [Statement, encode, rowMask, rowMatch]
  apply BitVec.eq_of_getLsbD_eq
  intro i hi
  rw [BitVec.getLsbD_and, bits_op_3_9]
  interval_cases i <;> simp

theorem sti (sr : Reg) (off : BitVec 9) : Statement (.sti sr off) := by
  simp only [Statement, encode, rowMask, rowMatch]
  apply BitVec.eq_of_getLsbD_eq
  intro i hi
  rw [BitVec.getLsbD_and, bits_op_3_9]
  interval_cases i <;> simp

theorem jmp (base : Reg) : Statement (.jmp base) := by
  simp only [Statement, encode, rowMask, rowMatch]
  apply BitVec.eq_of_getLsbD_eq
  intro i hi
  rw [BitVec.getLsbD_and, bits_op_3_3_6]
  interval_cases i <;> simp

theorem res (low : BitVec 12) : Statement (.res low) := by
  simp only [Statement, encode, rowMask, rowMatch]
  apply BitVec.eq_of_getLsbD_eq
  intro i hi
  rw [BitVec.getLsbD_and, bits_op_12]
  interval_cases i <;> simp

theorem lea (dr : Reg) (off : BitVec 9) : Statement (.lea dr off) := by
  simp only [Statement, encode, rowMask, rowMatch]
  apply BitVec.eq_of_getLsbD_eq
  intro i hi
  rw [BitVec.getLsbD_and, bits_op_3_9]
  interval_cases i <;> simp

theorem trap (vect : BitVec 8) : Statement (.trap vect) := by
  simp only [Statement, encode, rowMask, rowMatch]
  apply BitVec.eq_of_getLsbD_eq
  intro i hi
  rw [BitVec.getLsbD_and, bits_op_4_8]
  interval_cases i <;> simp

theorem getc : Statement .getc := by
  unfold Statement; decide

theorem out : Statement .out := by
  unfold Statement; decide

theorem puts : Statement .puts := by
  unfold Statement; decide

theorem inp : Statement .inp := by
  unfold Statement; decide

theorem putsp : Statement .putsp := by
  unfold Statement; decide

theorem halt : Statement .halt := by
  unfold Statement; decide

theorem ret : Statement .ret := by
  unfold Statement; decide

end Sys2Proof.Laws.RowMatch
end

