-- ==== Sys2Proof/Tests/Slice0.lean ====
section
/-! SUPPORT. The model's own tests: the ill-formed terms, one word written out for every constructor, small
one-step tests, and the witnesses of the statements' hypotheses. Expected values are the spec's:
`95_test_vectors.md` (the vector is named) or the field tables of `30_encoding.md` R94. -/

open Sys2Proof Sys2Proof.Machine Sys2Proof.Safety Sys2Proof.Laws

namespace Sys2Proof.Tests

/-! ## Small states -/

/-- Reset with the words placed from 0x3000 on. -/
def start (ws : List Word) : State := { State.reset with mem := placeWords 0x3000 ws [] }

/-- The same, with one more word placed. -/
def also (a v : Word) (s : State) : State := { s with mem := s.mem.setWord a v }

/-- R65's deterministic console, holding `ks`. -/
def typed (ks : List Byte) (s : State) : State := { s with console := { s.console with keys := ks } }

/-- An open input on which nothing ever arrives. -/
def quiet (s : State) : State := { s with console := { s.console with tail := .silent } }

/-- An input without end. -/
def held (b : Byte) (s : State) : State := { s with console := { s.console with tail := .endless b } }

/-- An input without end whose bytes are the environment's free values. -/
def streamed (s : State) : State := { s with console := { s.console with tail := .stream ⟨0, 0⟩ } }

/-- Poll answers that are the environment's free values. -/
def freely (s : State) : State := { s with console := { s.console with pollTail := .free ⟨0, 0⟩ } }

/-- The environment's answers to the coming polls. -/
def answers (ps : List Bool) (s : State) : State := { s with console := { s.console with polls := ps } }

/-- `pc` and the flags. -/
def at' (pc cond : Word) (s : State) : State := { s with pc := pc, cond := cond }

/-- What a step answers, if it is a next state. -/
def after (s : State) : Option State :=
  match step s with
  | .next t => some t
  | .fault _ => none
  | .refused _ => none

/-- A few fields of it. -/
def post {α : Type} (s : State) (f : State → α) : Option α := (after s).map f

/-- Why a step stops. -/
def stops (s : State) : Option Fault :=
  match step s with
  | .next _ => none
  | .fault r => some r
  | .refused _ => none

theorem step_of_after {s : State} (h : (after s).isSome = true) : ∃ t, step s = .next t := by
  unfold after at h
  split at h
  · exact ⟨_, ‹_›⟩
  · cases h
  · cases h

/-! ## Well-formedness: each check refuses an ill-formed term -/

theorem test_wf_trap_low_service_vector : WellFormed (.trap 0x20) = false := by decide
theorem test_wf_trap_high_service_vector : WellFormed (.trap 0x25) = false := by decide
theorem test_wf_jmp_r7 : WellFormed (.jmp 7) = false := by decide
theorem test_wf_neighbours : WellFormed (.trap 0x1F) = true ∧ WellFormed (.trap 0x26) = true ∧
    WellFormed (.jmp 6) = true := by decide

/-! ## One word for every constructor, its fields written out as R94 lays them (`0000 nzp kkkkkkkkk`, ...) -/

theorem test_decode_br : decode (0b0000#4 ++ 0b101#3 ++ 0b100000001#9) = .br true false true 0x101 := by decide
theorem test_decode_add_register :
    decode (0b0001#4 ++ 0b010#3 ++ 0b101#3 ++ 0b0#1 ++ 0b11#2 ++ 0b110#3) = .addReg 2 5 6 := by decide
theorem test_decode_add_immediate :
    decode (0b0001#4 ++ 0b010#3 ++ 0b101#3 ++ 0b1#1 ++ 0b10001#5) = .addImm 2 5 0x11 := by decide
theorem test_decode_ld : decode (0b0010#4 ++ 0b011#3 ++ 0b100000010#9) = .ld 3 0x102 := by decide
theorem test_decode_st : decode (0b0011#4 ++ 0b100#3 ++ 0b011111111#9) = .st 4 0x0FF := by decide
theorem test_decode_jsr : decode (0b0100#4 ++ 0b1#1 ++ 0b10000000001#11) = .jsr 0x401 := by decide
theorem test_decode_jsrr : decode (0b0100#4 ++ 0b0#1 ++ 0b11#2 ++ 0b101#3 ++ 0b111111#6) = .jsrr 5 := by decide
theorem test_decode_and_register :
    decode (0b0101#4 ++ 0b110#3 ++ 0b001#3 ++ 0b0#1 ++ 0b00#2 ++ 0b100#3) = .andReg 6 1 4 := by decide
theorem test_decode_and_immediate :
    decode (0b0101#4 ++ 0b110#3 ++ 0b001#3 ++ 0b1#1 ++ 0b01110#5) = .andImm 6 1 0x0E := by decide
theorem test_decode_ldr : decode (0b0110#4 ++ 0b111#3 ++ 0b010#3 ++ 0b100001#6) = .ldr 7 2 0x21 := by decide
theorem test_decode_str : decode (0b0111#4 ++ 0b001#3 ++ 0b110#3 ++ 0b011110#6) = .str 1 6 0x1E := by decide
theorem test_decode_rti : decode (0b1000#4 ++ 0b000000000001#12) = .rti 1 := by decide
theorem test_decode_not : decode (0b1001#4 ++ 0b010#3 ++ 0b001#3 ++ 0b111111#6) = .not 2 1 := by decide
theorem test_decode_ldi : decode (0b1010#4 ++ 0b001#3 ++ 0b000000010#9) = .ldi 1 2 := by decide
theorem test_decode_sti : decode (0b1011#4 ++ 0b011#3 ++ 0b111111110#9) = .sti 3 0x1FE := by decide
theorem test_decode_jmp : decode (0b1100#4 ++ 0b111#3 ++ 0b011#3 ++ 0b000000#6) = .jmp 3 := by decide
theorem test_decode_ret : decode (0b1100#4 ++ 0b000#3 ++ 0b111#3 ++ 0b000000#6) = .ret := by decide
theorem test_decode_res : decode (0b1101#4 ++ 0b000100100011#12) = .res 0x123 := by decide
theorem test_decode_lea : decode (0b1110#4 ++ 0b101#3 ++ 0b100000000#9) = .lea 5 0x100 := by decide
theorem test_decode_trap : decode (0b1111#4 ++ 0b1010#4 ++ 0b00100110#8) = .trap 0x26 := by decide
theorem test_decode_getc : decode (0b1111#4 ++ 0b0000#4 ++ 0b00100000#8) = .getc := by decide
theorem test_decode_out : decode (0b1111#4 ++ 0b0000#4 ++ 0b00100001#8) = .out := by decide
theorem test_decode_puts : decode (0b1111#4 ++ 0b0000#4 ++ 0b00100010#8) = .puts := by decide
theorem test_decode_in : decode (0b1111#4 ++ 0b1111#4 ++ 0b00100011#8) = .inp := by decide
theorem test_decode_putsp : decode (0b1111#4 ++ 0b0000#4 ++ 0b00100100#8) = .putsp := by decide
theorem test_decode_halt : decode (0b1111#4 ++ 0b0001#4 ++ 0b00100101#8) = .halt := by decide

/-- An image's byte order: 0x12 0x20 is the word 0x1220 (R222); one byte alone is no instruction (R90). -/
theorem test_decode_bytes : decodeTableWord 16 0x1220 = some (.addImm 1 0 0) ∧
    decodeTableWord 24 0x1220 = none ∧ (match decodeBytes [0x12] with
      | .error e => e == .truncated
      | .ok _ => false) = true := by decide

/-! ## One step -/

/-- V-ADD-4: signed overflow is silent. -/
theorem test_add_register : post (((start [0x1401]).setReg 0 0x7FFF).setReg 1 0x0001)
    (fun t => (t.reg 2, t.cond, t.pc)) = some (0x8000, 0x0004, 0x3001) := by decide

/-- V-ADD-9: all three fields the same register. -/
theorem test_add_register_same : post ((start [0x1000]).setReg 0 0x8000)
    (fun t => (t.reg 0, t.cond)) = some (0x0000, 0x0002) := by decide

/-- V-ADD-2, the source's S2. -/
theorem test_add_immediate : post ((start [0x127F]).setReg 1 0x0001)
    (fun t => (t.reg 1, t.cond)) = some (0x0000, 0x0002) := by decide

/-- V-ADD-7. -/
theorem test_add_immediate_least : post (start [0x16F0])
    (fun t => (t.reg 3, t.cond)) = some (0xFFF0, 0x0004) := by decide

/-- V-AND-1. -/
theorem test_and_register : post (((start [0x5642]).setReg 1 0xF0F0).setReg 2 0xFF00)
    (fun t => (t.reg 3, t.cond)) = some (0xF000, 0x0004) := by decide

/-- V-AND-5: the mask is 0xFFF0. -/
theorem test_and_immediate : post ((start [0x5270]).setReg 1 0x1234)
    (fun t => (t.reg 1, t.cond)) = some (0x1230, 0x0001) := by decide

/-- V-NOT-4: the source is `ir[8:6]`. -/
theorem test_not : post (((start [0x947F]).setReg 1 0x00FF).setReg 2 0x1111)
    (fun t => (t.reg 2, t.reg 1, t.cond)) = some (0xFF00, 0x00FF, 0x0004) := by decide

/-- V-LD-6: 0xFFFF + 1 wraps. -/
theorem test_ld_wraps : post (also 0xFFFE 0x2201 (also 0x0000 0x7777 (at' 0xFFFE 0 State.reset)))
    (fun t => (t.reg 1, t.cond, t.pc)) = some (0x7777, 0x0001, 0xFFFF) := by decide

/-- V-LD-2: it loads its own word. -/
theorem test_ld_self : post (start [0x21FF]) (fun t => (t.reg 0, t.cond)) = some (0x21FF, 0x0001) := by decide

/-- V-LDI-1. -/
theorem test_ldi : post (also 0x4000 0x8001 (start [0xA202, 0, 0, 0x4000]))
    (fun t => (t.reg 1, t.cond)) = some (0x8001, 0x0004) := by decide

/-- V-KB-1 and V-KB-15: the data read is at KBSR, with a key, and with a poll that answers true on an ended
input. -/
theorem test_ldi_keyboard :
    post (typed [0x41] (start [0xA001, 0, 0xFE00]))
      (fun t => (t.reg 0, t.cond, t.mem.wordAt 0xFE00, t.mem.wordAt 0xFE02, t.console.keys)) =
        some (0x8000, 0x0004, 0x8000, 0x0041, []) ∧
    post (answers [true] (start [0xA001, 0, 0xFE00]))
      (fun t => (t.fault, t.reg 0, t.mem.wordAt 0xFE00, t.pc)) =
        some (some .consoleInputEnd, 0x0000, 0x0000, 0x3001) := by decide

/-- V-LDR-2: 0xFFFF + 31 wraps. -/
theorem test_ldr_wraps : post (also 0x001E 0x00AA ((start [0x6A9F]).setReg 2 0xFFFF))
    (fun t => (t.reg 5, t.cond)) = some (0x00AA, 0x0001) := by decide

/-- V-LDR-4: the base is read before DR is written. -/
theorem test_ldr_same : post ((start [0x6240]).setReg 1 0x3000)
    (fun t => (t.reg 1, t.cond)) = some (0x6240, 0x0001) := by decide

/-- V-LEA-4: LEA writes the flags. -/
theorem test_lea_flags : post (also 0x00FF 0xE700 (at' 0x00FF 0x0001 State.reset))
    (fun t => (t.reg 3, t.cond, t.pc)) = some (0x0000, 0x0002, 0x0100) := by decide

/-- V-LEA-5. -/
theorem test_lea_negative : post (also 0x7FFF 0xE000 (at' 0x7FFF 0 State.reset))
    (fun t => (t.reg 0, t.cond)) = some (0x8000, 0x0004) := by decide

/-- V-ST-1. -/
theorem test_st : post (at' 0x3000 0x0002 ((start [0x37FE]).setReg 3 0xBEEF))
    (fun t => (t.mem.wordAt 0x2FFF, t.cond)) = some (0xBEEF, 0x0002) := by decide

/-- V-STI-2: the pointer points at itself. -/
theorem test_sti_self : post ((start [0xB600, 0x3001]).setReg 3 0x7777)
    (fun t => t.mem.wordAt 0x3001) = some 0x7777 := by decide

/-- V-KB-14: a store to KBSR does not poll. -/
theorem test_sti_keyboard : post (typed [0x41] ((start [0xB001, 0, 0xFE00]).setReg 0 0x0055))
    (fun t => (t.mem.wordAt 0xFE00, t.console.keys)) = some (0x0055, [0x41]) := by decide

/-- V-STR-2: 0x0000 - 1 wraps. -/
theorem test_str_wraps : post ((start [0x7FBF]).setReg 7 0x2222)
    (fun t => t.mem.wordAt 0xFFFF) = some 0x2222 := by decide

/-- V-BR-1, the source's S5. -/
theorem test_br_taken : post (at' 0x3000 0x0002 (start [0x0403])) (fun t => t.pc) = some 0x3004 := by decide

/-- V-BR-6: no flag is set yet. -/
theorem test_br_before_any_flag : post (start [0x0E05]) (fun t => t.pc) = some 0x3001 := by decide

/-- V-JMP-2: the JMP itself reads nothing at 0xFE00. -/
theorem test_jmp : post (typed [0x41] ((start [0xC080]).setReg 2 0xFE00))
    (fun t => (t.pc, t.console.keys)) = some (0xFE00, [0x41]) := by decide

/-- V-JMP-1, the second half of S6. -/
theorem test_ret : post ((start [0xC1C0]).setReg 7 0x3001) (fun t => t.pc) = some 0x3001 := by decide

/-- V-JSR-2. -/
theorem test_jsr : post (start [0x4C00]) (fun t => (t.reg 7, t.pc)) = some (0x3001, 0x2C01) := by decide

/-- V-JSRR-1. -/
theorem test_jsrr : post ((start [0x40C0]).setReg 3 0x5000)
    (fun t => (t.reg 7, t.pc)) = some (0x3001, 0x5000) := by decide

/-- V-JSRR-2: it falls through. -/
theorem test_jsrr_r7 : post ((start [0x41C0]).setReg 7 0x5000)
    (fun t => (t.reg 7, t.pc)) = some (0x3001, 0x3001) := by decide

/-- V-GETC-2: a zero byte is a character, no flag is set. -/
theorem test_getc : post (typed [0x00, 0xFF] ((start [0xF020]).setReg 0 0xFFFF))
    (fun t => (t.reg 0, t.console.keys, t.cond)) = some (0x0000, [0xFF], 0) := by decide

/-- V-GETC-3, the input has ended; and U8, an open input on which nothing arrives. -/
theorem test_getc_end : post ((start [0xF020]).setReg 0 0x1234)
    (fun t => (t.fault, t.reg 0, t.reg 7, t.run)) =
      some (some .consoleInputEnd, 0x1234, 0x3001, true) ∧
    stops (quiet (start [0xF020])) = some .consoleWait := by decide

/-- V-OUT-1. -/
theorem test_out : post ((start [0xF021]).setReg 0 0x1241) (fun t => (t.out, t.reg 0)) =
    some ([0x41], 0x1241) := by decide

/-- V-PUTS-4: the walk wraps from 0xFFFF to 0x0000. -/
theorem test_puts_wraps : post (also 0xFFFF 0x0021 (also 0x0000 0x003F ((start [0xF022]).setReg 0 0xFFFF)))
    (fun t => (t.out, t.reg 0)) = some ([0x21, 0x3F], 0xFFFF) := by decide

/-- V-KB-13: the walk polls at KBSR. -/
theorem test_puts_keyboard : post (typed [0x78, 0x79] (also 0xFDFF 0x0041
    ((start [0xF022]).setReg 0 0xFDFF)))
    (fun t => (t.out, t.mem.wordAt 0xFE00, t.mem.wordAt 0xFE02, t.console.keys)) =
      some ([0x41, 0x00], 0x8000, 0x0078, [0x79]) := by decide

/-- V-IN-1: prompt, then echo. -/
theorem test_in : post (typed [0x7A] (at' 0x3000 0x0002 (start [0xF023])))
    (fun t => (t.reg 0, t.cond, t.out)) = some (0x007A, 0x0002,
      [0x45, 0x6E, 0x74, 0x65, 0x72, 0x20, 0x61, 0x20, 0x63, 0x68, 0x61, 0x72, 0x61, 0x63, 0x74, 0x65,
        0x72, 0x3A, 0x20, 0x7A]) := by decide

/-- V-PUTSP-1: "Hey", and 0x4002 is not read. -/
theorem test_putsp : post (also 0x4000 0x6548 (also 0x4001 0x0079 (also 0x4002 0x4141
    ((start [0xF024]).setReg 0 0x4000)))) (fun t => t.out) = some [0x48, 0x65, 0x79] := by decide

/-- V-PUTSP-4: a zero low byte is written. -/
theorem test_putsp_zero_low : post (also 0x4000 0x4100 (also 0x4001 0x0042
    ((start [0xF024]).setReg 0 0x4000))) (fun t => t.out) = some [0x00, 0x41, 0x42] := by decide

/-- V-HALT-2. -/
theorem test_halt : post (at' 0x3000 0x0001 (start [0xFF25]))
    (fun t => (t.out, t.run, t.fault, t.reg 7, t.cond)) =
      some ([0x48, 0x41, 0x4C, 0x54, 0x0A], false, none, 0x3001, 0x0001) := by decide

/-- V-TRAPX-4: zero-extended. -/
theorem test_trap_unknown : post (start [0xF0FF])
    (fun t => (t.fault, t.reg 7, t.run)) = some (some (.unknownTrapVector 0xFF), 0x3001, true) := by decide

/-- V-RTI-1. -/
theorem test_rti : post (at' 0x3000 0x0001 (start [0x8000]))
    (fun t => (t.fault, t.pc, t.run, t.cond)) =
      some (some (.illegalOpcode 0x8000), 0x3001, true, 0x0001) := by decide

/-- V-RES-1. -/
theorem test_res : post (start [0xD123])
    (fun t => (t.fault, t.pc)) = some (some (.illegalOpcode 0xD123), 0x3001) := by decide

/-- V-KB-10: a fetch from KBSR polls and decodes 0x8000. -/
theorem test_fetch_kbsr : post (typed [0x41] (at' 0xFE00 0 State.reset))
    (fun t => (t.fault, t.pc, t.mem.wordAt 0xFE02)) =
      some (some (.illegalOpcode 0x8000), 0xFE01, 0x0041) := by decide

/-- The image of program P6: its bytes, and its words where R222 and R223 put them. -/
theorem test_boot : (boot [[0x30, 0x00, 0x12, 0x61, 0x80, 0x00, 0xF0, 0x25]] Console.empty).map
    (fun s => (s.mem.wordAt 0x3000, s.mem.wordAt 0x3001, s.mem.wordAt 0x3002, s.pc)) =
      some (0x1261, 0x8000, 0xF025, 0x3000) := by decide

/-- R224: the three malformed images. -/
theorem test_malformed : parseImage [0x30] = none ∧ parseImage [0x30, 0x00, 0x12] = none ∧
    parseImage [0xFF, 0xFF, 0x00, 0x01, 0x00, 0x02] = none := by decide

/-! ## Witnesses: states and operands that meet the hypotheses, clause by clause, at a boundary -/

theorem witness_StateBeforeFirstStep : (0xFFFE#16).toNat + [0x1220#16, 0xF025#16].length ≤ 65536 ∧
    (0 < [0x1220#16, 0xF025#16].length ∧ 1 < [0x1220#16, 0xF025#16].length) ∧
    (0xFFFD#16).toNat < (0xFFFE#16).toNat ∧
    (0x3000#16).toNat + [0x1220#16].length ≤ (0x3001#16).toNat := by decide

theorem witness_ImagePlacement : (0x0000#16).toNat + [0x1220#16].length ≤ 65536 ∧
    0 < [0x1220#16].length ∧ (0x0000#16).toNat + [0x1220#16].length ≤ (0x0001#16).toNat ∧
    (0x2FFF#16).toNat < (0x3000#16).toNat := by decide

theorem witness_MalformedImagesDoNotLoad : 65536 < (0xFFFF#16).toNat + [0x1220#16, 0xF025#16].length := by
  decide

theorem witness_StepKeepsInvariant : MachineInv (start [0x1220]) ∧ ∃ t, step (start [0x1220]) = .next t :=
  ⟨⟨by decide, .inl rfl, (by intro c h; cases h), (by intro h; cases h)⟩, step_of_after (by decide)⟩

theorem witness_OneFlagIsKept : OneFlag (at' 0x3000 0x0004 (start [0x0E05])).cond ∧
    ∃ t, step (at' 0x3000 0x0004 (start [0x0E05])) = .next t :=
  ⟨.inr (.inr rfl), step_of_after (by decide)⟩

theorem witness_DecodeOfEncode : WellFormed (.trap 0x26) = true ∧ WellFormed (.jmp 6) = true ∧
    WellFormed (.addImm 7 7 0x1F) = true := by decide

theorem witness_UnexaminedBitsAreIgnored :
    ((0x1401#16 &&& 0xF020 = 0x1000 ∧ 0x1401#16 &&& 0xFFE7 = 0x1419 &&& 0xFFE7) ∧
      (0x5642#16 &&& 0xF020 = 0x5000 ∧ 0x5642#16 &&& 0xFFE7 = 0x565A &&& 0xFFE7)) ∧
    (0x947F#16 &&& 0xF000 = 0x9000 ∧ 0x947F#16 &&& 0xFFC0 = 0x9440 &&& 0xFFC0) ∧
    (0xC040#16 &&& 0xF000 = 0xC000 ∧ 0xC040#16 &&& 0xF1C0 = 0xCE7F &&& 0xF1C0) ∧
    (0x4000#16 &&& 0xF800 = 0x4000 ∧ 0x4000#16 &&& 0xF9C0 = 0x463F &&& 0xF9C0) ∧
    (0xF025#16 &&& 0xF000 = 0xF000 ∧ 0xF025#16 &&& 0xF0FF = 0xFF25 &&& 0xF0FF) ∧
    (0x8000#16 &&& 0xF000 = 0x8000 ∧ 0x8FFF#16 &&& 0xF000 = 0x8000) ∧
    (0xD000#16 &&& 0xF000 = 0xD000 ∧ 0xDFFF#16 &&& 0xF000 = 0xD000) := by decide

theorem witness_SignExtension : (0b01111#5).getLsbD (5 - 1) = false ∧ (0b10000#5).getLsbD (5 - 1) = true ∧
    (0b1#1).getLsbD (1 - 1) = true ∧ (0x8000#16).getLsbD (16 - 1) = true := by decide

theorem witness_AddRegister : 0x1419#16 &&& 0xF020 = 0x1000 := by decide
theorem witness_AddImmediate : 0x1FFF#16 &&& 0xF020 = 0x1020 := by decide
theorem witness_AndRegister : 0x565A#16 &&& 0xF020 = 0x5000 := by decide
theorem witness_AndImmediate : 0x503F#16 &&& 0xF020 = 0x5020 := by decide
theorem witness_NotComplement : 0x9440#16 &&& 0xF000 = 0x9000 := by decide

/-- KBSR with a key, and with a poll that answers `true` on an ended input. -/
def atKbsr (ps : List Bool) (ks : List Byte) : State := answers ps (typed ks (at' 0xFE01 0 State.reset))

theorem memRead_key : ∃ v t, memRead 0xFE00 (atKbsr [] [0x41]) = .done v t := ⟨_, _, rfl⟩
theorem memRead_raises : ∃ t, memRead 0xFE00 (atKbsr [true] []) = .raised t := ⟨_, rfl⟩

theorem witness_LoadPcRelative : 0x21FF#16 &&& 0xF000 = 0x2000 ∧
    (atKbsr [] []).pc + signed 0x000#9 ≠ 0xFE00 ∧
    (∃ v t, memRead ((atKbsr [] [0x41]).pc + signed 0x1FF#9) (atKbsr [] [0x41]) = .done v t) ∧
    ∃ t, memRead ((atKbsr [true] []).pc + signed 0x1FF#9) (atKbsr [true] []) = .raised t :=
  ⟨by decide, by decide, memRead_key, memRead_raises⟩

/-- A state whose word at 0xFE02 points at KBSR. -/
def pointer (ps : List Bool) (ks : List Byte) : State := also 0xFE02 0xFE00 (atKbsr ps ks)

theorem witness_LoadIndirect : 0xA1FF#16 &&& 0xF000 = 0xA000 ∧
    ((atKbsr [] []).pc + signed 0x000#9 ≠ 0xFE00 ∧
      (atKbsr [] []).mem.wordAt ((atKbsr [] []).pc + signed 0x000#9) ≠ 0xFE00) ∧
    (∃ p v s' s'', memRead ((pointer [] [0x41]).pc + signed 0x001#9) (pointer [] [0x41]) = .done p s' ∧
      memRead p s' = .done v s'') ∧
    (∃ t, memRead ((atKbsr [true] []).pc + signed 0x1FF#9) (atKbsr [true] []) = .raised t) ∧
    ∃ p s' s'', memRead ((pointer [true] []).pc + signed 0x001#9) (pointer [true] []) = .done p s' ∧
      memRead p s' = .raised s'' :=
  ⟨by decide, by decide, ⟨_, _, _, _, rfl, rfl⟩, memRead_raises, ⟨_, _, _, rfl, rfl⟩⟩

theorem witness_LoadBaseOffset : 0x6240#16 &&& 0xF000 = 0x6000 ∧
    ((atKbsr [] []).setReg 1 0xFE20).reg 1 + signed 0x21#6 ≠ 0xFE00 ∧
    (∃ v t, memRead (((atKbsr [] [0x41]).setReg 1 0xFE20).reg 1 + signed 0x20#6)
      ((atKbsr [] [0x41]).setReg 1 0xFE20) = .done v t) ∧
    ∃ t, memRead (((atKbsr [true] []).setReg 1 0xFE20).reg 1 + signed 0x20#6)
      ((atKbsr [true] []).setReg 1 0xFE20) = .raised t :=
  ⟨by decide, by decide, ⟨_, _, rfl⟩, ⟨_, rfl⟩⟩

theorem witness_LoadEffectiveAddress : 0xE700#16 &&& 0xF000 = 0xE000 := by decide
theorem witness_StorePcRelative : 0x37FE#16 &&& 0xF000 = 0x3000 := by decide

theorem witness_StoreIndirect : 0xB600#16 &&& 0xF000 = 0xB000 ∧
    (atKbsr [] []).pc + signed 0x000#9 ≠ 0xFE00 ∧
    (∃ p t, memRead ((atKbsr [] [0x41]).pc + signed 0x1FF#9) (atKbsr [] [0x41]) = .done p t) ∧
    ∃ t, memRead ((atKbsr [true] []).pc + signed 0x1FF#9) (atKbsr [true] []) = .raised t :=
  ⟨by decide, by decide, memRead_key, memRead_raises⟩

theorem witness_StoreBaseOffset : 0x7FBF#16 &&& 0xF000 = 0x7000 := by decide

theorem witness_ConditionalBranch : 0x0FFF#16 &&& 0xF000 = 0x0000 ∧
    (0b010#3 &&& (at' 0x3000 0x0002 State.reset).cond.setWidth 3 ≠ 0) ∧
    (0b101#3 &&& (at' 0x3000 0x0002 State.reset).cond.setWidth 3 = 0) ∧
    (0b111#3 &&& State.reset.cond.setWidth 3 = 0) := by decide

theorem witness_BranchBeforeAnyFlag : State.reset.cond = 0x0000 ∧
    OneFlag (at' 0x3000 0x0001 State.reset).cond := ⟨rfl, .inl rfl⟩

theorem witness_JumpAndReturn : (0xC180#16 &&& 0xF000 = 0xC000 ∧ 0xC180#16 &&& 0x01C0 ≠ 0x01C0) ∧
    0xCFFF#16 &&& 0xF1C0 = 0xC1C0 := by decide

theorem witness_JumpToSubroutine : 0x4FFF#16 &&& 0xF800 = 0x4800 := by decide
theorem witness_JumpToSubroutineRegister : 0x41C0#16 &&& 0xF800 = 0x4000 := by decide
theorem witness_TrapSelectsService : 0xFF25#16 &&& 0xF000 = 0xF000 := by decide

/-- The five inputs a console read can meet. -/
theorem witness_GetcReadsOneByte : 0xFF20#16 &&& 0xF0FF = 0xF020 ∧
    (typed [0xFF] State.reset).console.keys = 0xFF :: [] ∧
    ((held 0x00 State.reset).console.keys = [] ∧ (held 0x00 State.reset).console.tail = .endless 0x00) ∧
    ((streamed State.reset).console.keys = [] ∧ (streamed State.reset).console.tail = .stream ⟨0, 0⟩) ∧
    (State.reset.console.keys = [] ∧ State.reset.console.tail = .ended) ∧
    ((quiet State.reset).console.keys = [] ∧ (quiet State.reset).console.tail = .silent) := by decide

theorem witness_InPromptsAndEchoes : 0xFF23#16 &&& 0xF0FF = 0xF023 ∧
    (typed [0x00] State.reset).console.keys = 0x00 :: [] ∧
    ((held 0xFF State.reset).console.keys = [] ∧ (held 0xFF State.reset).console.tail = .endless 0xFF) ∧
    ((streamed State.reset).console.keys = [] ∧ (streamed State.reset).console.tail = .stream ⟨0, 0⟩) ∧
    (State.reset.console.keys = [] ∧ State.reset.console.tail = .ended) ∧
    ((quiet State.reset).console.keys = [] ∧ (quiet State.reset).console.tail = .silent) := by decide

theorem witness_OutWritesLowByte : 0xFF21#16 &&& 0xF0FF = 0xF021 := by decide

/-- "Hi" at 0xFFFF, wrapping to 0x0000. -/
def hi : State := also 0xFFFF 0x0048 (also 0x0000 0x0069 (State.reset.setReg 0 0xFFFF))

theorem word_at {s : State} {a b w : Word} (h : s.mem.wordAt b = w) (e : a = b) : s.mem.wordAt a = w := e ▸ h

theorem hi_words : hi.mem.wordAt 0xFFFF = 0x0048 ∧ hi.mem.wordAt 0x0000 = 0x0069 ∧
    hi.mem.wordAt 0x0001 = 0x0000 ∧ hi.reg 0 = 0xFFFF := by decide

theorem witness_PutsWritesString : 0xFF22#16 &&& 0xF0FF = 0xF022 ∧
    StringAt hi (hi.reg 0) ([0x0048, 0x0069] ++ [0x0000]) ∧ ∀ w ∈ [0x0048#16, 0x0069#16], w ≠ 0x0000 := by
  refine ⟨by decide, ?_, by simp⟩
  rw [hi_words.2.2.2]
  intro i h
  match i, h with
  | 0, _ => exact ⟨word_at hi_words.1 (by decide), by decide⟩
  | 1, _ => exact ⟨word_at hi_words.2.1 (by decide), by decide⟩
  | 2, _ => exact ⟨word_at hi_words.2.2.1 (by decide), by decide⟩

/-- `n` cells that each hold 0x01, the low bytes of the Words from `k` on. -/
def ones : Nat → Nat → Memory
  | 0, _ => []
  | n + 1, k => (2 * k + 1, 0x01) :: ones n (k + 1)

theorem ones_at {j : Nat} : ∀ n k : Nat, k ≤ j → j < k + n → Memory.byteAt (ones n k) (2 * j + 1) = 0x01
  | 0, _, _, _ => by omega
  | n + 1, k, hk, hj => by
    rw [ones, byteAt_cons]
    split
    · rfl
    · exact ones_at n (k + 1) (by omega) (by omega)

/-- Memory without one zero Word, and an input without end of the byte 0x01, which every poll finds. -/
def unterminated : State := held 0x01 { State.reset with mem := ones Config.memWords 0 }

theorem unterminated_word (a : Word) : unterminated.mem.wordAt a ≠ 0 := by
  intro h
  have h1 : Memory.byteAt (ones Config.memWords 0) (2 * a.toNat + 1) = 0x01 :=
    ones_at _ _ (Nat.zero_le _) (by have := a.isLt; omega)
  have h2 := congrArg lowByte h
  rw [Memory.wordAt, lowByte_wordOfBytes] at h2
  exact absurd (h1.symm.trans h2) (by decide)

/-- Where no Word is zero and non-zero keys never run out, R164's loop has no end: only KBSR and KBDR change on the
way, and never to zero. -/
theorem puts_loop_endless {a : Word} {s t : State} (h : PutsLoop a s t) :
    KeysUnending s.console → PollsUnending s.console → ¬ ∀ c, s.mem.wordAt c ≠ 0 := by
  have word : ∀ {a w : Word} {s s' : State}, KeysUnending s.console → PollsUnending s.console →
      (∀ c, s.mem.wordAt c ≠ 0) → memRead a s = .done w s' →
      w ≠ 0 ∧ KeysUnending s'.console ∧ PollsUnending s'.console ∧ ∀ c, s'.mem.wordAt c ≠ 0 := by
    intro a w s s' hk hp hm h
    by_cases ha : a = kbsr
    · subst ha
      obtain ⟨k, h0, e, hk', hp'⟩ := memRead_kbsr_unending hk hp
      rw [e] at h
      cases h
      refine ⟨by decide, hk', hp', fun c => ?_⟩
      rw [gotKey, wordAt_setWord, wordAt_setWord]
      split
      · intro h1
        have h2 := congrArg lowByte h1
        rw [lowByte_zext8] at h2
        exact h0 h2
      · split
        · decide
        · exact hm c
    · rw [memRead_plain s ha] at h
      cases h
      exact ⟨hm a, hk, hp, hm⟩
  induction h with
  | terminator h => exact fun hk hp hm => (word hk hp hm h).1 rfl
  | char h _ _ ih =>
    intro hk hp hm
    obtain ⟨-, hk', hp', hm'⟩ := word hk hp hm h
    exact ih hk' hp' hm'
  | @raised a s s' h =>
    intro hk hp hm
    by_cases ha : a = kbsr
    · subst ha
      obtain ⟨k, -, e, -⟩ := memRead_kbsr_unending hk hp
      rw [e] at h
      cases h
    · rw [memRead_plain s ha] at h
      cases h

theorem hi_loop : ∃ t, PutsLoop (hi.reg 0) hi t := by
  rw [hi_words.2.2.2]
  refine ⟨_, .char (memRead_plain hi (by decide)) ?_ (.char (memRead_plain _ (by decide)) ?_ (.terminator
    ((memRead_plain (consoleWrite _ (consoleWrite _ hi)) (by decide)).trans (congrArg (Eff.done · _) ?_))))⟩
  · rw [hi_words.1]; decide
  · show hi.mem.wordAt 0x0000 ≠ 0
    rw [hi_words.2.1]; decide
  · exact hi_words.2.2.1

/-- A state whose loop ends, and one whose loop has no end, whatever R7 holds. -/
theorem witness_PutsIsTheLoop : 0xFF22#16 &&& 0xF0FF = 0xF022 ∧ (∃ t, PutsLoop (hi.reg 0) hi t) ∧
    ∀ s1 : State, s1.mem = unterminated.mem → s1.console = unterminated.console →
      ∀ t, ¬ PutsLoop (unterminated.reg 0) s1 t := by
  refine ⟨by decide, hi_loop, fun s1 hm hc t h => puts_loop_endless h ?_ ?_ ?_⟩
  · rw [hc]; exact ⟨rfl, rfl⟩
  · rw [hc]; exact ⟨rfl, rfl⟩
  · rw [hm]; exact unterminated_word

/-- The last word of the packed string is non-zero with a zero high byte; the first has a zero low byte. -/
def packed : State := also 0xFFFF 0x4100 (also 0x0000 0x0069 (State.reset.setReg 0 0xFFFF))

theorem packed_words : packed.mem.wordAt 0xFFFF = 0x4100 ∧ packed.mem.wordAt 0x0000 = 0x0069 ∧
    packed.reg 0 = 0xFFFF := by decide

theorem witness_PutspWritesPackedString : 0xFF24#16 &&& 0xF0FF = 0xF024 ∧
    StringAt packed (packed.reg 0) ([0x4100] ++ [0x0069]) ∧ (∀ w ∈ [0x4100#16], hiByte w ≠ 0) ∧
    hiByte 0x0069 = 0 ∧ hiByte 0x0000 = 0 := by
  refine ⟨by decide, ?_, ?_, by decide, by decide⟩
  rotate_left
  · intro w hw; rw [List.mem_singleton.mp hw]; decide
  rw [packed_words.2.2]
  intro i h
  match i, h with
  | 0, _ => exact ⟨word_at packed_words.1 (by decide), by decide⟩
  | 1, _ => exact ⟨word_at packed_words.2.1 (by decide), by decide⟩

/-- A state whose loop ends; none has a loop without end (PutspAlwaysEnds). -/
theorem witness_PutspIsTheLoop : 0xFF24#16 &&& 0xF0FF = 0xF024 ∧ ∃ t, PutspLoop (packed.reg 0) packed t := by
  rw [packed_words.2.2]
  refine ⟨by decide, ⟨_, .chars (memRead_plain packed (by decide)) ?_
    (.last (memRead_plain _ (by decide)) ?_ ?_)⟩⟩
  · rw [packed_words.1]; decide
  · show packed.mem.wordAt 0x0000 ≠ 0
    rw [packed_words.2.1]; decide
  · show hiByte (packed.mem.wordAt 0x0000) = 0
    rw [packed_words.2.1]; decide

theorem witness_HaltStopsTheLoop : 0xFF25#16 &&& 0xF0FF = 0xF025 ∧ State.reset.fault = none := by decide

theorem witness_UnknownVectorRaises :
    (0xF01F#16 &&& 0xF000 = 0xF000 ∧ (0xF01F#16).toNat % 256 < 0x20) ∧
    (0xFF26#16 &&& 0xF000 = 0xF000 ∧ 0x25 < (0xFF26#16).toNat % 256) := by decide

theorem witness_IllegalOpcodesRaise : 0x8FFF#16 &&& 0xF000 = 0x8000 ∧ 0xDFFF#16 &&& 0xF000 = 0xD000 := by
  decide

theorem witness_GatewayRead : (0xFE01#16 ≠ 0xFE00 ∧ 0xFDFF#16 ≠ 0xFE00 ∧ 0xFE02#16 ≠ 0xFE00) ∧
    (∃ s1, consolePoll (atKbsr [] []) = (false, s1)) ∧
    (∃ s1 s2 k, consolePoll (atKbsr [] [0x41]) = (true, s1) ∧ consoleRead s1 = .done k s2) ∧
    (0xFE01#16 ≠ 0xFE00 ∧ 0xFE01#16 ≠ 0xFE02) ∧
    ∃ s1 s2, consolePoll (atKbsr [true] []) = (true, s1) ∧ consoleRead s1 = .raised s2 :=
  ⟨by decide, ⟨_, rfl⟩, ⟨_, _, _, rfl, rfl⟩, by decide, ⟨_, _, rfl, rfl⟩⟩

theorem witness_KeyboardStatusRead : (∃ w t, memRead 0xFE00 (atKbsr [] [0x41]) = .done w t) ∧
    ∃ t, memRead 0xFE00 (atKbsr [] []) = .done 0x0000 t := ⟨memRead_key, ⟨_, rfl⟩⟩

theorem witness_PollIsNonBlocking : (∃ b s1, consolePoll (atKbsr [] []) = (b, s1)) ∧
    (∃ s1, consolePoll (atKbsr [true] []) = (true, s1)) ∧
    ((atKbsr [false] [0x41]).console.keys = 0x41 :: [] ∧
      (atKbsr [false] [0x41]).console.polls = false :: []) ∧
    ((freely (atKbsr [] [0x41])).console.keys = 0x41 :: [] ∧ (freely (atKbsr [] [0x41])).console.polls = [] ∧
      (freely (atKbsr [] [0x41])).console.pollTail = .free ⟨0, 0⟩) :=
  ⟨⟨_, _, rfl⟩, ⟨_, rfl⟩, ⟨rfl, rfl⟩, ⟨rfl, rfl, rfl⟩⟩

theorem witness_DeterministicConsole :
    ((typed [0x41] State.reset).console.polls = [] ∧ (typed [0x41] State.reset).console.pollTail = .readiness ∧
      (typed [0x41] State.reset).console.tail = .ended ∧ (typed [0x41] State.reset).console.keys = 0x41 :: []) ∧
    (State.reset.console.polls = [] ∧ State.reset.console.pollTail = .readiness ∧
      State.reset.console.tail = .ended ∧ State.reset.console.keys = []) := by
  decide

theorem live_reset : Live State.reset := ⟨rfl, rfl⟩

theorem witness_StepRunsDecodedInstruction :
    Live (at' 0xFFFF 0 State.reset) ∧ (at' 0xFFFF 0 State.reset).pc ≠ 0xFE00 := ⟨live_reset, by decide⟩

/-- `pc` at KBSR. -/
def fetchAtKbsr (ps : List Bool) (ks : List Byte) : State := { atKbsr ps ks with pc := 0xFE00 }

theorem witness_FetchThroughGateway : Live (fetchAtKbsr [] [0x41]) ∧
    (∃ ir s1, memRead (fetchAtKbsr [] [0x41]).pc (fetchAtKbsr [] [0x41]) = .done ir s1) ∧
    Live (fetchAtKbsr [true] []) ∧
    ∃ s1, memRead (fetchAtKbsr [true] []).pc (fetchAtKbsr [true] []) = .raised s1 :=
  ⟨live_reset, ⟨_, _, rfl⟩, live_reset, ⟨_, rfl⟩⟩

/-- All three ends of a fetch at KBSR. -/
theorem witness_FetchFromKeyboardStatus :
    (Live (fetchAtKbsr [] []) ∧ (fetchAtKbsr [] []).pc = 0xFE00 ∧
      ∃ t, step (fetchAtKbsr [] []) = .next t) ∧
    (Live (fetchAtKbsr [] [0x41]) ∧ (fetchAtKbsr [] [0x41]).pc = 0xFE00 ∧
      ∃ t, step (fetchAtKbsr [] [0x41]) = .next t) ∧
    (Live (fetchAtKbsr [true] []) ∧ (fetchAtKbsr [true] []).pc = 0xFE00 ∧
      ∃ t, step (fetchAtKbsr [true] []) = .next t) :=
  ⟨⟨live_reset, rfl, step_of_after (by decide)⟩, ⟨live_reset, rfl, step_of_after (by decide)⟩,
    ⟨live_reset, rfl, step_of_after (by decide)⟩⟩

theorem witness_StoppedMachineTakesNoStep :
    (raise .consoleInputEnd State.reset).fault = some .consoleInputEnd ∧
    ((clearRun State.reset).fault = none ∧ (clearRun State.reset).run = false) ∧
    ∃ t, step (start [0x0000]) = .next t := ⟨rfl, ⟨rfl, rfl⟩, step_of_after (by decide)⟩

theorem witness_FlagsFollowDestination :
    (∃ t, exec .getc (typed [0x41] State.reset) = .next t ∧ destOf .getc = none) ∧
    (∃ t, exec (.ld 7 0x1FF) (atKbsr [] [0x41]) = .next t ∧ destOf (.ld 7 0x1FF) = some 7) ∧
    ∃ t, exec (.ld 7 0x1FF) (atKbsr [true] []) = .next t ∧ destOf (.ld 7 0x1FF) = some 7 :=
  ⟨⟨_, rfl, rfl⟩, ⟨_, rfl, rfl⟩, ⟨_, rfl, rfl⟩⟩

theorem witness_OnlyNamedRegistersWritten :
    ∃ t, exec (.addImm 1 0 0) State.reset = .next t ∧ ¬ mayWrite (.addImm 1 0 0) 7 :=
  ⟨_, rfl, by simp [mayWrite, destOf, isTrap]⟩

theorem witness_OnlyTransfersWritePc : ∃ t, exec .halt State.reset = .next t ∧ ¬ writesPc .halt :=
  ⟨_, rfl, id⟩

theorem witness_MemoryChangesOnlyByStoreOrPoll :
    (∃ t, exec .out State.reset = .next t ∧ ¬ isStore .out ∧ ¬ readsMemory .out) ∧
    (∃ t, exec (.ld 0 0x1FF) (atKbsr [] [0x41]) = .next t ∧ ¬ isStore (.ld 0 0x1FF)) ∧
    (0xFE01#16 ≠ 0xFE00 ∧ 0xFE01#16 ≠ 0xFE02) :=
  ⟨⟨_, rfl, id, id⟩, ⟨_, rfl, id⟩, by decide⟩

theorem witness_OnlyHaltClearsRun : ∃ t, step (start [0xF025]) = .next t ∧ t.run = false := by
  have h : post (start [0xF025]) (fun t => t.run) = some false := by decide
  unfold post after at h
  split at h
  · exact ⟨_, ‹_›, by simpa using h⟩
  · cases h
  · cases h

theorem witness_OnlyRaiseWritesFault :
    (∃ t, exec (.trap 0x1F) State.reset = .next t ∧ alwaysRaises (.trap 0x1F)) ∧
    (∃ t, exec (.trap 0x26) State.reset = .next t ∧ alwaysRaises (.trap 0x26)) ∧
    (∃ t, exec .getc State.reset = .next t ∧ ¬ alwaysRaises .getc) :=
  ⟨⟨_, rfl, .inl (by decide)⟩, ⟨_, rfl, .inr (by decide)⟩, ⟨_, rfl, id⟩⟩

theorem witness_ConsoleInOrder : (∃ t, step (typed [0x41, 0x42] (start [0xF020])) = .next t) ∧
    ∃ t, exec .getc (typed [0x41, 0x42] State.reset) = .next t ∧ ¬ writesConsole .getc :=
  ⟨step_of_after (by decide), ⟨_, rfl, id⟩⟩

theorem witness_KeyboardCannotInterrupt : ¬ readsMemory .halt ∧ ¬ readsConsole .halt := ⟨id, id⟩

theorem witness_StoredWordRunsNext : Live (start [0x3200]) ∧ (start [0x3200]).pc ≠ 0xFE00 ∧
    (start [0x3200]).pc + 1 ≠ 0xFE00 ∧
    (start [0x3200]).mem.wordAt (start [0x3200]).pc = encode (.st 1 0) :=
  ⟨live_reset, by decide, by decide, by decide⟩

end Sys2Proof.Tests
end

section
/-! SUPPORT. Sign extension (`00_scope.md` R10): what its bits are, and what adding it to a Word adds. -/

namespace Sys2Proof.Proofs
open Sys2Proof.Machine Sys2Proof.Safety

/-- The extended field is the Word of the field's signed value. -/
theorem sext_eq_signed {n : Nat} (v : BitVec n) : sext v = signed v := rfl

/-- R10's replication, bit by bit: below `n` the field's bits, from `n` up its top bit. -/
theorem getLsbD_sext {n : Nat} (v : BitVec n) (i : Nat) (hi : i < 16) :
    (sext v).getLsbD i = if i < n then v.getLsbD i else v.getLsbD (n - 1) := by
  rw [sext, BitVec.getLsbD_signExtend, BitVec.msb_eq_getLsbD_last]
  simp [hi]

theorem sext_of_top_clear {n : Nat} {v : BitVec n} (h : v.getLsbD (n - 1) = false) :
    sext v = BitVec.ofNat 16 v.toNat := by
  rw [BitVec.ofNat_toNat, sext]
  exact BitVec.signExtend_eq_setWidth_of_msb_false (v.msb_eq_getLsbD_last.trans h)

/-- The Word with ones from bit `n` up. -/
theorem getLsbD_ones_shiftLeft (n i : Nat) (hi : i < 16) :
    (0xFFFF#16 <<< n).getLsbD i = decide (n ≤ i) := by
  have ones : (0xFFFF#16).getLsbD (i - n) = true :=
    (BitVec.getLsbD_allOnes (v := 16)).trans (decide_eq_true (by omega))
  rw [BitVec.getLsbD_shiftLeft, ones]
  simp only [hi, decide_true, Bool.true_and, Bool.and_true, ← decide_not, Nat.not_lt]

theorem sext_of_top_set {n : Nat} {v : BitVec n} (h : v.getLsbD (n - 1) = true) :
    sext v = BitVec.ofNat 16 v.toNat ||| (0xFFFF#16 <<< n) := by
  apply BitVec.eq_of_getLsbD_eq
  intro i hi
  rw [getLsbD_sext v i hi, BitVec.getLsbD_or, getLsbD_ones_shiftLeft n i hi, BitVec.ofNat_toNat,
    BitVec.getLsbD_setWidth]
  by_cases below : i < n
  · simp [below, hi]
  · simp [below, h, Nat.le_of_not_lt below]

/-- Adding an extended field adds its signed value, modulo 2^16. -/
theorem add_sext {n : Nat} (a : Word) (v : BitVec n) :
    a + sext v = BitVec.ofInt 16 (a.toNat + v.toInt) := by
  rw [sext_eq_signed, signed, BitVec.ofInt_add, BitVec.ofInt_natCast, BitVec.ofNat_toNat, BitVec.setWidth_eq]

/-- Settles O12: the bits by cases on the field's top bit, the sum by the field's signed value. -/
theorem signExtension : Obligations.SignExtension :=
  fun _ v _ _ => ⟨sext_of_top_clear, sext_of_top_set, (add_sext · v), v.le_toInt, v.toInt_lt⟩

end Sys2Proof.Proofs
end

section
/-! SUPPORT. What loading an image does (`70_reset_and_hazards.md` R222, R223): the words its bytes are, and the
Word each address reads once they are placed. -/

namespace Sys2Proof.Proofs
open Sys2Proof.Machine Sys2Proof.Safety Sys2Proof.Laws

/-! ## Reading an image's bytes (R222) -/

theorem loByte_eq_lowByte (w : Word) : loByte w = lowByte w := by
  simp [BitVec.toNat_eq, loByte, lowByte]

theorem hiByte_eq_highByte (w : Word) : hiByte w = highByte w := by
  simp [BitVec.toNat_eq, hiByte, highByte, Nat.shiftRight_eq_div_pow]

@[simp] theorem wordOfBytes_hiByte_loByte (w : Word) : wordOfBytes (hiByte w) (loByte w) = w := by
  rw [hiByte_eq_highByte, loByte_eq_lowByte, wordOfBytes_bytes]

@[simp] theorem wordsOfBytes_bytes (ws : List Word) :
    wordsOfBytes (ws.flatMap fun w => [hiByte w, loByte w]) = some ws := by
  induction ws with
  | nil => rfl
  | cons w ws ih => simp [wordsOfBytes, ih]

theorem parseImage_imageBytes (origin : Word) (ws : List Word) :
    parseImage (imageBytes origin ws) =
      if origin.toNat + ws.length ≤ 65536 then some { origin := origin, words := ws } else none := by
  simp [imageBytes, parseImage]

theorem loadImage_imageBytes {origin : Word} {ws : List Word} (fits : origin.toNat + ws.length ≤ 65536)
    (m : Memory) : loadImage (imageBytes origin ws) m = some (placeWords origin ws m) := by
  rw [loadImage, parseImage_imageBytes, if_pos fits, Option.map_some]

/-! ## Reading memory after the words are placed (R223) -/

theorem add_ofNat_succ (a : Word) (i : Nat) : a + BitVec.ofNat 16 (i + 1) = a + 1 + BitVec.ofNat 16 i := by
  rw [Nat.add_comm i 1, BitVec.ofNat_add]
  exact (BitVec.add_assoc a 1 _).symm

theorem wordAt_placeWords_ne (ws : List Word) (m : Memory) (a : Word) {b : Word}
    (h : ∀ i < ws.length, b ≠ a + BitVec.ofNat 16 i) : (placeWords a ws m).wordAt b = m.wordAt b := by
  induction ws generalizing m a with
  | nil => rfl
  | cons w ws ih =>
    have first : b ≠ a := by simpa using h 0 (Nat.zero_lt_succ _)
    have later : ∀ i < ws.length, b ≠ a + 1 + BitVec.ofNat 16 i := fun i hi =>
      add_ofNat_succ a i ▸ h (i + 1) (Nat.succ_lt_succ hi)
    rw [placeWords, ih _ _ later, wordAt_setWord_ne _ _ first]

/-- There are no more words than addresses, so none is stored over an earlier one. -/
theorem wordAt_placeWords_covered (ws : List Word) (m : Memory) (a : Word) (hlen : ws.length ≤ 65536)
    (i : Nat) (h : i < ws.length) : (placeWords a ws m).wordAt (a + BitVec.ofNat 16 i) = ws[i] := by
  induction ws generalizing m a i with
  | nil => exact absurd h (Nat.not_lt_zero _)
  | cons w ws ih =>
    rw [List.length_cons] at hlen
    cases i with
    | zero =>
      have later : ∀ j < ws.length, a + BitVec.ofNat 16 0 ≠ a + 1 + BitVec.ofNat 16 j := by
        intro j hj
        bv_omega
      rw [placeWords, wordAt_placeWords_ne _ _ _ later]
      simp
    | succ i =>
      rw [add_ofNat_succ]
      exact ih _ _ (Nat.le_of_succ_le hlen) i (Nat.lt_of_succ_lt_succ h)

theorem ne_covered_of_outside {origin b : Word} {n : Nat} (fits : origin.toNat + n ≤ 65536)
    (outside : b.toNat < origin.toNat ∨ origin.toNat + n ≤ b.toNat) :
    ∀ i < n, b ≠ origin + BitVec.ofNat 16 i := by
  intro i hi
  bv_omega

/-! ## The state before the first step (R221) -/

theorem boot_imageBytes {origin : Word} {ws : List Word} (fits : origin.toNat + ws.length ≤ 65536)
    (con : Console) : boot [imageBytes origin ws] con =
      some { State.reset with mem := placeWords origin ws [], console := con } := by
  simp [boot, loadImages, loadImage_imageBytes fits]

/-- Settles O2: the registers and `pc` are those of reset, and the image's words are placed into memory that
lists nothing. -/
theorem stateBeforeFirstStep : Obligations.StateBeforeFirstStep := by
  intro origin ws con fits
  refine ⟨_, boot_imageBytes fits con, reset_reg, rfl, ?covered, ?outside⟩
  case covered => exact wordAt_placeWords_covered ws [] origin (Nat.le_of_add_left_le fits)
  case outside =>
    intro a outside
    exact (wordAt_placeWords_ne ws [] origin (ne_covered_of_outside fits outside)).trans (wordAt_nil a)

end Sys2Proof.Proofs
end

section
/-! SUPPORT. What a store into one cell changes and leaves alone (`20_memory.md` R51). -/

namespace Sys2Proof.Proofs
open Sys2Proof.Machine Sys2Proof.Safety Sys2Proof.Laws

theorem storeWord_keepsRest (a v : Word) (s : State) : KeepsRest s (storeWord a v s) :=
  ⟨storeWord_run s a v, storeWord_fault s a v, storeWord_console s a v, storeWord_out s a v⟩

theorem storeWord_storesWord (a v : Word) (s : State) : StoresWord a v s (storeWord a v s) := by
  refine ⟨?cell, ?otherCells, storeWord_reg s a v, storeWord_cond s a v, storeWord_pc s a v,
    storeWord_keepsRest a v s⟩
  case cell => exact wordAt_setWord_self s.mem a v
  case otherCells => exact fun _ other => wordAt_setWord_ne s.mem v other

/-- Settles O41: the gateway's write is the plain store at every address, KBSR and KBDR not set apart. -/
theorem writeIsPlainStore : Obligations.WriteIsPlainStore :=
  storeWord_storesWord

end Sys2Proof.Proofs
end

section
/-! SUPPORT. Decoding by mask and match (`30_encoding.md` R92, R100, R101): the fields as the decoder cuts them out,
and the opcode and form bit of a word that meets a row's match. -/

namespace Sys2Proof.Proofs
open Sys2Proof.Machine Sys2Proof.Safety

/-- The decoder's register field is the field said by integers (R92). -/
theorem regField_eq_regAt (w : Word) (lo : Nat) : regField w lo = regAt w lo := by
  rw [regField, BitVec.toFin_extractLsb', Nat.shiftRight_eq_div_pow, regAt]

/-! ## A word that meets a match under a mask (R100) -/

theorem opcode_of_match {w mask row : Word} (h : w &&& mask = row) (covers : opcode mask = BitVec.allOnes 4) :
    opcode w = opcode row :=
  calc opcode w
    _ = opcode w &&& opcode mask := by rw [covers, BitVec.and_allOnes]
    _ = opcode (w &&& mask) := BitVec.extractLsb'_and.symm
    _ = opcode row := by rw [h]

theorem getLsbD_of_match {w mask row : Word} (h : w &&& mask = row) {k : Nat} (covers : mask.getLsbD k = true) :
    w.getLsbD k = row.getLsbD k := by
  rw [← h, BitVec.getLsbD_and, covers, Bool.and_true]

/-! ## The two opcodes with two forms (R101) -/

theorem decode_of_opcode_add {w : Word} (h : opcode w = 0x1) :
    decode w = if w.getLsbD 5 then .addImm (regAt w 9) (regAt w 6) (w.setWidth 5)
      else .addReg (regAt w 9) (regAt w 6) (regAt w 0) := by
  have row : decode w = decodeAdd w := by simp [decode, h]
  rw [row, decodeAdd, BitVec.setWidth_eq_extractLsb' (by decide)]
  simp only [regField_eq_regAt]

theorem decode_of_opcode_and {w : Word} (h : opcode w = 0x5) :
    decode w = if w.getLsbD 5 then .andImm (regAt w 9) (regAt w 6) (w.setWidth 5)
      else .andReg (regAt w 9) (regAt w 6) (regAt w 0) := by
  have row : decode w = decodeAnd w := by simp [decode, h]
  rw [row, decodeAnd, BitVec.setWidth_eq_extractLsb' (by decide)]
  simp only [regField_eq_regAt]

end Sys2Proof.Proofs
end

section
/-! SUPPORT. What writing a destination register with its flag changes and leaves alone (`10_state.md` R27). -/

namespace Sys2Proof.Proofs
open Sys2Proof.Machine Sys2Proof.Safety Sys2Proof.Laws

theorem getLsbD_sign_iff (v : Word) : v.getLsbD 15 = true ↔ v.toInt < 0 := by
  rw [← v.msb_eq_getLsbD_last, BitVec.msb_eq_toInt, decide_eq_true_iff]

/-- R13's tests, on the Word and its top bit, give the flag of the word's sign. -/
theorem flagsOf_eq_signFlag (v : Word) : flagsOf v = signFlag v := by
  have zero : v.toInt = 0 ↔ v = 0 := BitVec.toInt_inj (y := 0#16)
  rcases flagsOf_cases v with ⟨rfl, flag⟩ | ⟨top, flag⟩ | ⟨nonzero, top, flag⟩
  · rfl
  · have negative : v.toInt < 0 := (getLsbD_sign_iff v).mp top
    rw [flag, signFlag, if_pos negative, flagN]
  · have nonnegative : ¬ v.toInt < 0 := by rw [← getLsbD_sign_iff, top]; exact Bool.false_ne_true
    rw [flag, signFlag, if_neg nonnegative, if_neg (mt zero.mp nonzero), flagP]

theorem writeDest_keepsRest (dr : Reg) (v : Word) (s : State) : KeepsRest s (writeDest dr v s) :=
  ⟨writeDest_run s dr v, writeDest_fault s dr v, writeDest_console s dr v, writeDest_out s dr v⟩

theorem writeDest_writesDest (dr : Reg) (v : Word) (s : State) : WritesDest dr v s (writeDest dr v s) := by
  refine ⟨writeDest_reg_self s dr v, ?otherRegisters, ?flag, writeDest_pc s dr v, writeDest_mem s dr v,
    writeDest_keepsRest dr v s⟩
  case otherRegisters => exact fun _ other => writeDest_reg_ne s v other
  case flag => exact (writeDest_cond s dr v).trans (flagsOf_eq_signFlag v)

end Sys2Proof.Proofs
end

section
/-! The operate instructions ADD and AND (`40_operate.md` R120 to R123). -/

namespace Sys2Proof.Proofs
open Sys2Proof.Machine Sys2Proof.Safety

/-! ## The destination's new value -/

theorem exec_addReg (dr sr1 sr2 : Reg) (s : State) :
    exec (.addReg dr sr1 sr2) s = .next (writeDest dr (s.reg sr1 + s.reg sr2) s) := rfl

theorem exec_addImm (dr sr1 : Reg) (imm5 : BitVec 5) (s : State) :
    exec (.addImm dr sr1 imm5) s = .next (writeDest dr (s.reg sr1 + sext imm5) s) := rfl

theorem exec_andReg (dr sr1 sr2 : Reg) (s : State) :
    exec (.andReg dr sr1 sr2) s = .next (writeDest dr (s.reg sr1 &&& s.reg sr2) s) := rfl

theorem exec_andImm (dr sr1 : Reg) (imm5 : BitVec 5) (s : State) :
    exec (.andImm dr sr1 imm5) s = .next (writeDest dr (s.reg sr1 &&& sext imm5) s) := rfl

/-- The mask that an immediate is has the field's top bit from bit 4 up (R123). -/
theorem getLsbD_and_sext (a : Word) (imm5 : BitVec 5) (k : Nat) :
    (a &&& sext imm5).getLsbD k = (a.getLsbD k && imm5.getLsbD (min k 4)) := by
  rw [BitVec.getLsbD_and]
  by_cases inWord : k < 16
  · rw [getLsbD_sext imm5 k inWord]
    by_cases inField : k < 5
    · rw [if_pos inField, Nat.min_eq_left (Nat.le_of_lt_succ inField)]
    · rw [if_neg inField, Nat.min_eq_right (by omega)]
  · rw [a.getLsbD_of_ge k (Nat.le_of_not_lt inWord), Bool.false_and, Bool.false_and]

/-! ## The rules -/

/-- Settles O13: opcode 1 with bit 5 clear, and the Word sum is the sum of the naturals modulo 2^16. -/
theorem addRegister : Obligations.AddRegister := by
  refine ⟨fun w row => ?decodes, fun dr sr1 sr2 s => ⟨_, exec_addReg dr sr1 sr2 s, ?writes⟩⟩
  case decodes =>
    have form : w.getLsbD 5 = false := getLsbD_of_match row rfl
    rw [decode_of_opcode_add (opcode_of_match row rfl), form, if_neg Bool.false_ne_true]
  case writes =>
    rw [← BitVec.add_def]
    exact writeDest_writesDest dr _ s

/-- Settles O14: opcode 1 with bit 5 set, and adding the extended field adds its signed value. -/
theorem addImmediate : Obligations.AddImmediate := by
  refine ⟨fun w row => ?decodes, fun dr sr1 imm5 s => ⟨_, exec_addImm dr sr1 imm5 s, ?writes⟩⟩
  case decodes =>
    have form : w.getLsbD 5 = true := getLsbD_of_match row rfl
    rw [decode_of_opcode_add (opcode_of_match row rfl), form, if_pos rfl]
  case writes =>
    rw [← add_sext]
    exact writeDest_writesDest dr _ s

/-- Settles O15: opcode 5 with bit 5 clear, and the AND of two Words taken bit by bit. -/
theorem andRegister : Obligations.AndRegister := by
  refine ⟨fun w row => ?decodes, fun dr sr1 sr2 s =>
    ⟨_, _, exec_andReg dr sr1 sr2 s, writeDest_writesDest dr _ s, fun _ => BitVec.getLsbD_and⟩⟩
  case decodes =>
    have form : w.getLsbD 5 = false := getLsbD_of_match row rfl
    rw [decode_of_opcode_and (opcode_of_match row rfl), form, if_neg Bool.false_ne_true]

/-- Settles O16: opcode 5 with bit 5 set, and the extended field repeats its top bit above bit 4. -/
theorem andImmediate : Obligations.AndImmediate := by
  refine ⟨fun w row => ?decodes, fun dr sr1 imm5 s =>
    ⟨_, _, exec_andImm dr sr1 imm5 s, writeDest_writesDest dr _ s, getLsbD_and_sext _ imm5⟩⟩
  case decodes =>
    have form : w.getLsbD 5 = true := getLsbD_of_match row rfl
    rw [decode_of_opcode_and (opcode_of_match row rfl), form, if_pos rfl]

end Sys2Proof.Proofs
end

section
/-! SUPPORT. The seven opcodes of data movement, one form each (`30_encoding.md` R91, R94, R101). -/

namespace Sys2Proof.Proofs
open Sys2Proof.Machine Sys2Proof.Safety

/-- PCoffset9 as the decoder cuts it out. -/
theorem extractLsb'_pcOffset9 (w : Word) : w.extractLsb' 0 9 = w.setWidth 9 :=
  (BitVec.setWidth_eq_extractLsb' (by decide)).symm

/-- offset6 as the decoder cuts it out. -/
theorem extractLsb'_offset6 (w : Word) : w.extractLsb' 0 6 = w.setWidth 6 :=
  (BitVec.setWidth_eq_extractLsb' (by decide)).symm

theorem decode_of_opcode_ld {w : Word} (h : opcode w = 0x2) :
    decode w = .ld (regAt w 9) (w.setWidth 9) := by
  simp [decode, h, regField_eq_regAt, extractLsb'_pcOffset9]

theorem decode_of_opcode_st {w : Word} (h : opcode w = 0x3) :
    decode w = .st (regAt w 9) (w.setWidth 9) := by
  simp [decode, h, regField_eq_regAt, extractLsb'_pcOffset9]

theorem decode_of_opcode_ldr {w : Word} (h : opcode w = 0x6) :
    decode w = .ldr (regAt w 9) (regAt w 6) (w.setWidth 6) := by
  simp [decode, h, regField_eq_regAt, extractLsb'_offset6]

theorem decode_of_opcode_str {w : Word} (h : opcode w = 0x7) :
    decode w = .str (regAt w 9) (regAt w 6) (w.setWidth 6) := by
  simp [decode, h, regField_eq_regAt, extractLsb'_offset6]

theorem decode_of_opcode_ldi {w : Word} (h : opcode w = 0xA) :
    decode w = .ldi (regAt w 9) (w.setWidth 9) := by
  simp [decode, h, regField_eq_regAt, extractLsb'_pcOffset9]

theorem decode_of_opcode_sti {w : Word} (h : opcode w = 0xB) :
    decode w = .sti (regAt w 9) (w.setWidth 9) := by
  simp [decode, h, regField_eq_regAt, extractLsb'_pcOffset9]

theorem decode_of_opcode_lea {w : Word} (h : opcode w = 0xE) :
    decode w = .lea (regAt w 9) (w.setWidth 9) := by
  simp [decode, h, regField_eq_regAt, extractLsb'_pcOffset9]

end Sys2Proof.Proofs
end

section
/-! SUPPORT. What a gateway read leaves to the rest of its instruction (`20_memory.md` R52), and a load built on one. -/

namespace Sys2Proof.Proofs
open Sys2Proof.Machine Sys2Proof.Safety Sys2Proof.Laws

theorem memRead_reg {a v : Word} {s t : State} (read : memRead a s = .done v t) (r : Reg) :
    t.reg r = s.reg r := by
  have regs : t.regs = s.regs := (memRead_keeps (.inl ⟨v, read⟩)).regs
  rw [State.reg, State.reg, regs]

/-- A read that raises has stored nothing: only KBSR's read raises, and its raise comes before its stores. -/
theorem memRead_raised_mem {a : Word} {s t : State} (read : memRead a s = .raised t) : t.mem = s.mem := by
  by_cases atKbsr : a = kbsr
  · subst atKbsr
    rcases memRead_kbsr_cases s with noKey | ⟨_, key, -⟩ | raised
    · rw [noKey] at read; cases read
    · rw [key] at read; cases read
    · rw [raised] at read; cases read; rfl
  · rw [memRead_plain s atKbsr] at read; cases read

/-! ## A load into a register -/

theorem loadInto_of_done {a v : Word} {s s' : State} (read : memRead a s = .done v s') (dr : Reg) :
    loadInto dr a s = .done () (writeDest dr v s') := by
  rw [loadInto, read, andThen_done]

theorem loadInto_of_raised {a : Word} {s s' : State} (read : memRead a s = .raised s') (dr : Reg) :
    loadInto dr a s = .raised s' := by
  rw [loadInto, read, andThen_raised]

theorem loadInto_writesDest {a v : Word} {s s' : State} (read : memRead a s = .done v s') (dr : Reg) :
    ∃ t, (loadInto dr a s).outcome = .next t ∧ WritesDest dr v s' t := by
  rw [loadInto_of_done read, outcome_done]
  exact ⟨_, rfl, writeDest_writesDest dr v s'⟩

theorem loadInto_raises {a : Word} {s s' : State} (read : memRead a s = .raised s') (dr : Reg) :
    (loadInto dr a s).outcome = .next s' := by
  rw [loadInto_of_raised read, outcome_raised]

end Sys2Proof.Proofs
end

section
/-! The data movement instructions (`41_data_movement.md` R130 to R136). -/

namespace Sys2Proof.Proofs
open Sys2Proof.Machine Sys2Proof.Safety Sys2Proof.Laws

/-! ## The effective addresses (R129) -/

theorem eaPc_eq (off : BitVec 9) (s : State) : eaPc off s = s.pc + signed off := by
  rw [eaPc, sext_eq_signed]

theorem eaBase_eq (base : Reg) (off : BitVec 6) (s : State) : eaBase base off s = s.reg base + signed off := by
  rw [eaBase, sext_eq_signed]

/-! ## The meanings -/

theorem exec_ld (dr : Reg) (off : BitVec 9) (s : State) :
    exec (.ld dr off) s = (loadInto dr (s.pc + signed off) s).outcome := rfl

theorem exec_ldr (dr base : Reg) (off : BitVec 6) (s : State) :
    exec (.ldr dr base off) s = (loadInto dr (s.reg base + signed off) s).outcome := rfl

theorem exec_ldi (dr : Reg) (off : BitVec 9) (s : State) :
    exec (.ldi dr off) s = ((memRead (s.pc + signed off) s).andThen (loadInto dr)).outcome := rfl

theorem exec_lea (dr : Reg) (off : BitVec 9) (s : State) :
    exec (.lea dr off) s = .next (writeDest dr (s.pc + sext off) s) := rfl

theorem exec_st (sr : Reg) (off : BitVec 9) (s : State) :
    exec (.st sr off) s = .next (storeWord (eaPc off s) (s.reg sr) s) := rfl

theorem exec_str (sr base : Reg) (off : BitVec 6) (s : State) :
    exec (.str sr base off) s = .next (storeWord (eaBase base off s) (s.reg sr) s) := rfl

theorem exec_sti (sr : Reg) (off : BitVec 9) (s : State) :
    exec (.sti sr off) s = ((memRead (s.pc + signed off) s).andThen fun p s' =>
      .done () (storeWord p (s'.reg sr) s')).outcome := rfl

/-! ## Through a pointer -/

theorem exec_ldi_of_pointer {off : BitVec 9} {p : Word} {s s' : State}
    (pointer : memRead (s.pc + signed off) s = .done p s') (dr : Reg) :
    exec (.ldi dr off) s = (loadInto dr p s').outcome := by
  rw [exec_ldi, pointer, andThen_done]

theorem exec_ldi_of_raised {off : BitVec 9} {s s' : State}
    (pointer : memRead (s.pc + signed off) s = .raised s') (dr : Reg) : exec (.ldi dr off) s = .next s' := by
  rw [exec_ldi, pointer, andThen_raised, outcome_raised]

theorem exec_ldi_writesDest {off : BitVec 9} {p v : Word} {s s' s'' : State}
    (pointer : memRead (s.pc + signed off) s = .done p s') (data : memRead p s' = .done v s'') (dr : Reg) :
    ∃ t, exec (.ldi dr off) s = .next t ∧ WritesDest dr v s'' t := by
  rw [exec_ldi_of_pointer pointer]
  exact loadInto_writesDest data dr

/-- The pointer read leaves SR, so what is stored is the register's value before the instruction. -/
theorem exec_sti_storesWord {off : BitVec 9} {p : Word} {s s' : State}
    (pointer : memRead (s.pc + signed off) s = .done p s') (sr : Reg) :
    ∃ t, exec (.sti sr off) s = .next t ∧ StoresWord p (s.reg sr) s' t := by
  rw [exec_sti, pointer, andThen_done, outcome_done, memRead_reg pointer]
  exact ⟨_, rfl, storeWord_storesWord p _ s'⟩

theorem exec_sti_of_raised {off : BitVec 9} {s s' : State}
    (pointer : memRead (s.pc + signed off) s = .raised s') (sr : Reg) : exec (.sti sr off) s = .next s' := by
  rw [exec_sti, pointer, andThen_raised, outcome_raised]

/-! ## The rules -/

/-- Settles O19: by what each of the two reads in turn ends in; away from KBSR both are plain. -/
theorem loadIndirect : Obligations.LoadIndirect := by
  refine ⟨fun w row => decode_of_opcode_ldi (opcode_of_match row rfl), fun dr off s =>
    ⟨?plain, ?bothDone, ?pointerRaises, ?dataRaises⟩⟩
  case plain =>
    exact fun notKbsr pointerNotKbsr =>
      exec_ldi_writesDest (memRead_plain s notKbsr) (memRead_plain s pointerNotKbsr) dr
  case bothDone => exact fun _ _ _ _ pointer data => exec_ldi_writesDest pointer data dr
  case pointerRaises => exact fun _ pointer => exec_ldi_of_raised pointer dr
  case dataRaises =>
    exact fun _ _ _ pointer data => (exec_ldi_of_pointer pointer dr).trans (loadInto_raises data dr)

/-- Settles O23: by what the pointer read ends in; its raise comes before any store. -/
theorem storeIndirect : Obligations.StoreIndirect := by
  refine ⟨fun w row => decode_of_opcode_sti (opcode_of_match row rfl), fun sr off s =>
    ⟨?plain, ?pointerDone, ?pointerRaises⟩⟩
  case plain => exact fun notKbsr => exec_sti_storesWord (memRead_plain s notKbsr) sr
  case pointerDone => exact fun _ _ pointer => exec_sti_storesWord pointer sr
  case pointerRaises => exact fun _ pointer => ⟨exec_sti_of_raised pointer sr, memRead_raised_mem pointer⟩

/-- Settles O18: a load at `pc` plus the offset, by what its read ends in. -/
theorem loadPcRelative : Obligations.LoadPcRelative := by
  refine ⟨fun w row => decode_of_opcode_ld (opcode_of_match row rfl), fun dr off s => ?_⟩
  rw [exec_ld]
  exact ⟨fun notKbsr => loadInto_writesDest (memRead_plain s notKbsr) dr,
    fun _ _ read => loadInto_writesDest read dr, fun _ read => loadInto_raises read dr⟩

/-- Settles O20: a load at the base register, as the instruction finds it, plus the offset. -/
theorem loadBaseOffset : Obligations.LoadBaseOffset := by
  refine ⟨fun w row => decode_of_opcode_ldr (opcode_of_match row rfl), fun dr base off s => ?_⟩
  rw [exec_ldr]
  exact ⟨fun notKbsr => loadInto_writesDest (memRead_plain s notKbsr) dr,
    fun _ _ read => loadInto_writesDest read dr, fun _ read => loadInto_raises read dr⟩

/-- Settles O21: adding the extended offset adds its signed value. -/
theorem loadEffectiveAddress : Obligations.LoadEffectiveAddress := by
  refine ⟨fun w row => decode_of_opcode_lea (opcode_of_match row rfl),
    fun dr off s => ⟨_, exec_lea dr off s, ?writes⟩⟩
  rw [← add_sext]
  exact writeDest_writesDest dr _ s

/-- Settles O22: the plain store at `eaPc`. -/
theorem storePcRelative : Obligations.StorePcRelative :=
  ⟨fun _ row => decode_of_opcode_st (opcode_of_match row rfl), fun sr off s =>
    ⟨eaPc_eq off s, _, exec_st sr off s, storeWord_storesWord _ _ s⟩⟩

/-- Settles O24: the plain store at `eaBase`. -/
theorem storeBaseOffset : Obligations.StoreBaseOffset :=
  ⟨fun _ row => decode_of_opcode_str (opcode_of_match row rfl), fun sr base off s =>
    ⟨eaBase_eq base off s, _, exec_str sr base off s, storeWord_storesWord _ _ s⟩⟩

end Sys2Proof.Proofs
end

section
/-! SUPPORT. Decoding the control opcodes (`30_encoding.md` R91, R94, R101, R110): BR's one form, and the two forms
of JSR and of JMP. -/

namespace Sys2Proof.Proofs
open Sys2Proof.Machine Sys2Proof.Safety

theorem decode_of_opcode_br {w : Word} (h : opcode w = 0x0) :
    decode w = .br (w.getLsbD 11) (w.getLsbD 10) (w.getLsbD 9) (w.setWidth 9) := by
  simp [decode, h, extractLsb'_pcOffset9]

theorem decode_of_opcode_jsr {w : Word} (h : opcode w = 0x4) :
    decode w = if w.getLsbD 11 then .jsr (w.setWidth 11) else .jsrr (regAt w 6) := by
  have row : decode w = decodeJsr w := by simp [decode, h]
  rw [row, decodeJsr, BitVec.setWidth_eq_extractLsb' (by decide), regField_eq_regAt]

theorem decode_of_opcode_jmp {w : Word} (h : opcode w = 0xC) :
    decode w = if regAt w 6 = 7 then .ret else .jmp (regAt w 6) := by
  have row : decode w = decodeJmp w := by simp [decode, h]
  rw [row, decodeJmp, regField_eq_regAt]

/-! ## BaseR = 7, the test that sets RET apart (R110) -/

theorem and_baseRMask (w : Word) : w &&& (0x01C0 : Word) = (w.extractLsb' 6 3).setWidth 16 <<< 6 := by
  apply BitVec.eq_of_getLsbD_eq
  intro k inWord
  interval_cases k <;> simp

/-- BaseR is 7 when its three bits are set. -/
theorem regAt_base_eq_seven_iff (w : Word) : regAt w 6 = 7 ↔ w &&& 0x01C0 = 0x01C0 := by
  have field : regAt w 6 = 7 ↔ w.extractLsb' 6 3 = 7 := by
    rw [← regField_eq_regAt]
    exact BitVec.toFin_inj (y := 7#3)
  rw [field]
  constructor
  · intro seven
    rw [and_baseRMask, seven]
    rfl
  · intro bits
    calc w.extractLsb' 6 3
      _ = w.extractLsb' 6 3 &&& (0x01C0 : Word).extractLsb' 6 3 := BitVec.and_allOnes.symm
      _ = (w &&& 0x01C0).extractLsb' 6 3 := BitVec.extractLsb'_and.symm
      _ = 7 := by rw [bits]; rfl

end Sys2Proof.Proofs
end

section
/-! SUPPORT. What writing `pc`, alone or after the link register, changes and leaves alone
(`42_control.md` R149). -/

namespace Sys2Proof.Proofs
open Sys2Proof.Machine Sys2Proof.Safety Sys2Proof.Laws

theorem setPc_keepsRest (target : Word) (s : State) : KeepsRest s (s.setPc target) :=
  ⟨setPc_run s target, setPc_fault s target, setPc_console s target, setPc_out s target⟩

theorem setPc_jumps (target : Word) (s : State) : Jumps target s (s.setPc target) :=
  ⟨setPc_pc s target, setPc_reg s target, setPc_cond s target, setPc_mem s target, setPc_keepsRest target s⟩

theorem linkR7_keepsRest (s : State) : KeepsRest s (linkR7 s) :=
  ⟨linkR7_run s, linkR7_fault s, linkR7_console s, linkR7_out s⟩

theorem linkR7_setPc_calls (target : Word) (s : State) : Calls target s ((linkR7 s).setPc target) := by
  refine ⟨setPc_pc _ target, linkR7_reg_seven s, ?otherRegisters, linkR7_cond s, linkR7_mem s, linkR7_keepsRest s⟩
  case otherRegisters => exact fun _ other => linkR7_reg_ne s other

end Sys2Proof.Proofs
end

section
/-! The control instructions BR, JMP, RET and JSR (`42_control.md` R150 to R152). -/

namespace Sys2Proof.Proofs
open Sys2Proof.Machine Sys2Proof.Safety

/-! ## BR's test (R97) -/

/-- The model's test, flag against flag, is the AND of the mask with `cond[2:0]`. -/
theorem maskMeets_iff (n z p : Bool) (c : Word) :
    maskMeets n z p c = true ↔
      (BitVec.ofBool n ++ BitVec.ofBool z ++ BitVec.ofBool p) &&& c.setWidth 3 ≠ 0 := by
  have flag {k : Nat} (inField : k < 3) : c.getLsbD k = (c.setWidth 3).getLsbD k := by
    rw [BitVec.getLsbD_setWidth, decide_eq_true inField, Bool.true_and]
  rw [maskMeets, flag (k := 2) (by decide), flag (k := 1) (by decide), flag (k := 0) (by decide)]
  generalize c.setWidth 3 = flags
  revert n z p flags
  decide

/-! ## The meanings -/

theorem exec_br (n z p : Bool) (off : BitVec 9) (s : State) :
    exec (.br n z p off) s = .next (if maskMeets n z p s.cond then s.setPc (s.pc + signed off) else s) := rfl

theorem exec_jmp (base : Reg) (s : State) : exec (.jmp base) s = .next (s.setPc (s.reg base)) := rfl

theorem exec_ret (s : State) : exec .ret s = .next (s.setPc (s.reg 7)) := rfl

theorem exec_jsr (off : BitVec 11) (s : State) :
    exec (.jsr off) s = .next ((linkR7 s).setPc (s.pc + signed off)) := rfl

/-! ## The rules -/

/-- Settles O25: by whether the mask and `cond[2:0]` have a bit in common. -/
theorem conditionalBranch : Obligations.ConditionalBranch := by
  refine ⟨fun w row => decode_of_opcode_br (opcode_of_match row rfl), fun n z p off s => ⟨?taken, ?notTaken⟩⟩
  case taken =>
    intro common
    rw [exec_br, if_pos ((maskMeets_iff n z p s.cond).mpr common)]
    exact ⟨_, rfl, setPc_jumps _ s⟩
  case notTaken =>
    intro nothingCommon
    rw [exec_br, if_neg (fun meets => (maskMeets_iff n z p s.cond).mp meets nothingCommon)]

/-- Settles O27: opcode 12 by whether BaseR is 7; RET and JMP 7 are both `pc` from R7. -/
theorem jumpAndReturn : Obligations.JumpAndReturn := by
  refine ⟨fun w row base => ?decodesJmp, fun w row => ?decodesRet,
    fun base s => ⟨_, exec_jmp base s, setPc_jumps _ s⟩, fun s => ⟨_, exec_ret s, setPc_jumps _ s, exec_jmp 7 s⟩⟩
  case decodesJmp =>
    rw [decode_of_opcode_jmp (opcode_of_match row rfl), if_neg (mt (regAt_base_eq_seven_iff w).mp base)]
  case decodesRet =>
    have base : w &&& 0x01C0 = 0x01C0 :=
      calc w &&& 0x01C0
        _ = w &&& 0xF1C0 &&& 0x01C0 := (BitVec.and_assoc w 0xF1C0 0x01C0).symm
        _ = 0x01C0 := by rw [row]; rfl
    rw [decode_of_opcode_jmp (opcode_of_match row rfl), if_pos ((regAt_base_eq_seven_iff w).mpr base)]

/-- Settles O28: opcode 4 with bit 11 set; R7 is written from the `pc` the offset is then added to. -/
theorem jumpToSubroutine : Obligations.JumpToSubroutine := by
  refine ⟨fun w row => ?decodes, fun off s => ⟨_, exec_jsr off s, linkR7_setPc_calls _ s⟩⟩
  case decodes =>
    have form : w.getLsbD 11 = true := getLsbD_of_match row rfl
    rw [decode_of_opcode_jsr (opcode_of_match row rfl), form, if_pos rfl]

end Sys2Proof.Proofs
end

section
/-! SUPPORT. Decoding TRAP's rows and the two illegal opcodes (`30_encoding.md` R91, R98, R100, R101). -/

namespace Sys2Proof.Proofs
open Sys2Proof.Machine Sys2Proof.Safety

/-! ## Opcode 15 -/

theorem decode_of_opcode_trap {w : Word} (h : opcode w = 0xF) : decode w = decodeTrap w := by
  simp [decode, h]

/-- Of a TRAP word only opcode and vector are examined: a word that meets a match under 0xF0FF decodes as the
match does. -/
theorem decode_of_trapMatch {w row : Word} (h : w &&& 0xF0FF = row) (trap : opcode row = 0xF) :
    decode w = decode row := by
  have vector : w.extractLsb' 0 8 = row.extractLsb' 0 8 :=
    calc w.extractLsb' 0 8
      _ = w.extractLsb' 0 8 &&& (0xF0FF : Word).extractLsb' 0 8 := BitVec.and_allOnes.symm
      _ = (w &&& 0xF0FF).extractLsb' 0 8 := BitVec.extractLsb'_and.symm
      _ = row.extractLsb' 0 8 := by rw [h]
  have opcodes : opcode w = 0xF := (opcode_of_match h rfl).trans trap
  rw [decode_of_opcode_trap opcodes, decode_of_opcode_trap trap, decodeTrap, decodeTrap, vector]

/-! ## Opcodes 8 and 13 -/

/-- The 12 bits below the opcode as the decoder cuts them out. -/
theorem extractLsb'_low12 (w : Word) : w.extractLsb' 0 12 = w.setWidth 12 :=
  (BitVec.setWidth_eq_extractLsb' (by decide)).symm

theorem decode_of_opcode_rti {w : Word} (h : opcode w = 0x8) : decode w = .rti (w.setWidth 12) := by
  simp [decode, h, extractLsb'_low12]

theorem decode_of_opcode_res {w : Word} (h : opcode w = 0xD) : decode w = .res (w.setWidth 12) := by
  simp [decode, h, extractLsb'_low12]

/-- A word is its opcode over its low 12 bits. -/
theorem append_low12_of_opcode {w : Word} {op : BitVec 4} (h : opcode w = op) : op ++ w.setWidth 12 = w := by
  rw [← h, ← extractLsb'_low12, opcode]
  exact (BitVec.extractLsb'_append_extractLsb'_eq_extractLsb' rfl).trans BitVec.extractLsb'_eq_self

end Sys2Proof.Proofs
end

section
/-! SUPPORT. What TRAP's entry and the display writes of its services change and leave alone (`20_memory.md` R63,
`43_trap_and_illegal.md` R160), and that a cleared running flag ends the run loop (`70_reset_and_hazards.md`
R227). -/

namespace Sys2Proof.Proofs
open Sys2Proof.Machine Sys2Proof.Safety Sys2Proof.Laws

theorem linkR7_trapFrame (s : State) : TrapFrame s (linkR7 s) := by
  refine ⟨linkR7_reg_seven s, ?otherRegisters, linkR7_cond s, linkR7_pc s⟩
  case otherRegisters => exact fun _ other _ => linkR7_reg_ne s other

theorem linkR7_trapKeeps (s : State) : TrapKeeps s (linkR7 s) :=
  ⟨linkR7_trapFrame s, linkR7_reg_zero s, linkR7_mem s, linkR7_run s, linkR7_fault s⟩

theorem trapKeeps_consoleWrite {s t : State} (keeps : TrapKeeps s t) (b : Byte) : TrapKeeps s (consoleWrite b t) :=
  keeps

theorem trapKeeps_consoleWriteAll {s t : State} (keeps : TrapKeeps s t) (bs : List Byte) :
    TrapKeeps s (consoleWriteAll bs t) := by
  rw [consoleWriteAll_eq]
  exact keeps

theorem step_ne_next_of_run_clear {t : State} (stopped : t.run = false) (u : State) : step t ≠ .next u := by
  intro next
  obtain ⟨-, running, -⟩ := step_cases next
  exact Bool.false_ne_true (stopped.symm.trans running)

end Sys2Proof.Proofs
end

section
/-! The services OUT and HALT, and the illegal opcodes RTI and RES (`43_trap_and_illegal.md` R163, R167, R169,
R170). -/

namespace Sys2Proof.Proofs
open Sys2Proof.Machine Sys2Proof.Safety Sys2Proof.Laws

/-! ## The meanings -/

/-- TRAP's entry leaves R0, so the byte written is that of R0 before it. -/
theorem exec_out (s : State) : exec .out s = .next (consoleWrite (loByte (s.reg 0)) (linkR7 s)) := by
  rw [loByte_eq_lowByte, ← linkR7_reg_zero s]
  rfl

theorem exec_halt (s : State) : exec .halt s = .next (clearRun (consoleWriteAll haltMessage (linkR7 s))) := rfl

theorem exec_rti (low : BitVec 12) (s : State) :
    exec (.rti low) s = .next (raise (.illegalOpcode ((0x8 : BitVec 4) ++ low)) s) := rfl

theorem exec_res (low : BitVec 12) (s : State) :
    exec (.res low) s = .next (raise (.illegalOpcode ((0xD : BitVec 4) ++ low)) s) := rfl

/-- The cause carries the word itself: the opcode put back over the 12 bits that RTI kept (R169). -/
theorem exec_rti_of_opcode {w : Word} (h : opcode w = 0x8) (s : State) :
    exec (.rti (w.setWidth 12)) s = .next (raise (.illegalOpcode w) s) := by
  rw [exec_rti, append_low12_of_opcode h]

/-- The cause carries the word itself: the opcode put back over the 12 bits that RES kept (R170). -/
theorem exec_res_of_opcode {w : Word} (h : opcode w = 0xD) (s : State) :
    exec (.res (w.setWidth 12)) s = .next (raise (.illegalOpcode w) s) := by
  rw [exec_res, append_low12_of_opcode h]

/-! ## The rules -/

/-- Settles O32: after TRAP's entry the one display write touches the output alone. -/
theorem outWritesLowByte : Obligations.OutWritesLowByte := by
  refine ⟨fun w row => ?decodes, fun s =>
    ⟨_, exec_out s, trapKeeps_consoleWrite (linkR7_trapKeeps s) _, linkR7_console s, ?writes⟩⟩
  case decodes =>
    rw [decode_of_trapMatch row rfl]
    rfl
  case writes => rw [consoleWrite_out, linkR7_out]

/-- Settles O38: the message's bytes are appended as OUT's is, then `run` alone is cleared, and a stopped machine
takes no step. -/
theorem haltStopsTheLoop : Obligations.HaltStopsTheLoop := by
  refine ⟨fun w row => ?decodes, fun s => ⟨_, exec_halt s, ?_⟩⟩
  case decodes =>
    rw [decode_of_trapMatch row rfl]
    rfl
  obtain ⟨frame, r0, mem, -, fault⟩ := trapKeeps_consoleWriteAll (linkR7_trapKeeps s) haltMessage
  refine ⟨frame, r0, mem, fault, ?console, clearRun_run _, ?message,
    fun noFault => ⟨clearRun_run _, fault.trans noFault⟩, step_ne_next_of_run_clear (clearRun_run _)⟩
  case console => rw [clearRun_console, consoleWriteAll_eq, linkR7_console]
  case message =>
    rw [clearRun_out, consoleWriteAll_eq, linkR7_out]
    rfl

/-- Settles O40: the opcode puts the word together again for the fault cell, and each value of the 12 bits is in
the canonical word of its instruction. -/
theorem illegalOpcodesRaise : Obligations.IllegalOpcodesRaise := by
  refine ⟨fun w row => decode_of_opcode_rti (opcode_of_match row rfl),
    fun w row => decode_of_opcode_res (opcode_of_match row rfl),
    fun w s row => exec_rti_of_opcode (opcode_of_match row rfl) s,
    fun w s row => exec_res_of_opcode (opcode_of_match row rfl) s, fun low => ⟨?rtiWord, ?resWord⟩⟩
  case rtiWord => exact ⟨encode (.rti low), RowMatch.rti low, BitVec.setWidth_append_eq_right⟩
  case resWord => exact ⟨encode (.res low), RowMatch.res low, BitVec.setWidth_append_eq_right⟩

end Sys2Proof.Proofs
end

section
/-! The fetch through the gateway (`70_reset_and_hazards.md` R227, R228, `60_exceptions.md` R194). -/

namespace Sys2Proof.Proofs
open Sys2Proof.Machine Sys2Proof.Safety Sys2Proof.Laws

/-! ## The fetch, by what the read at `pc` answers -/

theorem fetch_of_done {ir : Word} {s s1 : State} (read : memRead s.pc s = .done ir s1) :
    fetch s = .done ir (s1.setPc (s1.pc + 1)) := by
  rw [fetch, read, andThen_done]

theorem fetch_of_raised {s s1 : State} (read : memRead s.pc s = .raised s1) : fetch s = .raised s1 := by
  rw [fetch, read, andThen_raised]

/-! ## The step of a machine that the run loop does not stop -/

theorem step_of_fetch_done {ir : Word} {s t : State} (live : Live s) (fetched : fetch s = .done ir t) :
    step s = exec (decode ir) t := by
  obtain ⟨running, noFault⟩ := live
  simp only [step, running, noFault, fetched]

theorem step_of_fetch_raised {s t : State} (live : Live s) (raised : fetch s = .raised t) :
    step s = .next t := by
  obtain ⟨running, noFault⟩ := live
  simp only [step, running, noFault, raised]

/-! ## The rule -/

/-- Settles O47: by what the read at `pc` answers; a gateway read leaves `pc`, so the incremented `pc` is one past
that before the step, and a raise comes before the increment. -/
theorem fetchThroughGateway : Obligations.FetchThroughGateway := by
  refine fun s live => ⟨fun ir s1 read => ?completes, fun s1 read => ?raises⟩
  case completes =>
    have pc : s1.pc = s.pc := (memRead_keeps (.inl ⟨ir, read⟩)).pc
    refine ⟨pc, ?_⟩
    rw [← pc]
    exact step_of_fetch_done live (fetch_of_done read)
  case raises =>
    exact ⟨step_of_fetch_raised live (fetch_of_raised read), (memRead_keeps (.inr read)).pc⟩

end Sys2Proof.Proofs
end

section
/-! SUPPORT. The register fields of an encoded word, format by format (`30_encoding.md` R92, R94), and the row an
encoded word meets (R100). -/

namespace Sys2Proof.Proofs
open Sys2Proof.Machine Sys2Proof.Safety Sys2Proof.Laws
open BitVec (extractLsb'_append_eq_of_le extractLsb'_append_eq_of_add_le extractLsb'_eq_self)

/-! ## Register fields -/

theorem regAt_of_field {w : Word} {lo : Nat} {r : Reg} (h : w.extractLsb' lo 3 = regBits r) : regAt w lo = r := by
  rw [← regField_eq_regAt, regField, h]
  rfl

theorem regAt_9_op_3_9 (op : BitVec 4) (r : Reg) (b : BitVec 9) : regAt (op ++ regBits r ++ b) 9 = r := by
  refine regAt_of_field ?_
  rw [extractLsb'_append_eq_of_le (by decide), extractLsb'_append_eq_of_add_le (by decide), extractLsb'_eq_self]

theorem regAt_9_op_3_3_6 (op : BitVec 4) (r : Reg) (b : BitVec 3) (c : BitVec 6) :
    regAt (op ++ regBits r ++ b ++ c) 9 = r := by
  refine regAt_of_field ?_
  iterate 2 rw [extractLsb'_append_eq_of_le (by decide)]
  rw [extractLsb'_append_eq_of_add_le (by decide), extractLsb'_eq_self]

theorem regAt_6_op_3_3_6 (op : BitVec 4) (a : BitVec 3) (r : Reg) (c : BitVec 6) :
    regAt (op ++ a ++ regBits r ++ c) 6 = r := by
  refine regAt_of_field ?_
  rw [extractLsb'_append_eq_of_le (by decide), extractLsb'_append_eq_of_add_le (by decide), extractLsb'_eq_self]

theorem regAt_9_op_3_3_1_5 (op : BitVec 4) (r : Reg) (b : BitVec 3) (c : BitVec 1) (d : BitVec 5) :
    regAt (op ++ regBits r ++ b ++ c ++ d) 9 = r := by
  refine regAt_of_field ?_
  iterate 3 rw [extractLsb'_append_eq_of_le (by decide)]
  rw [extractLsb'_append_eq_of_add_le (by decide), extractLsb'_eq_self]

theorem regAt_6_op_3_3_1_5 (op : BitVec 4) (a : BitVec 3) (r : Reg) (c : BitVec 1) (d : BitVec 5) :
    regAt (op ++ a ++ regBits r ++ c ++ d) 6 = r := by
  refine regAt_of_field ?_
  iterate 2 rw [extractLsb'_append_eq_of_le (by decide)]
  rw [extractLsb'_append_eq_of_add_le (by decide), extractLsb'_eq_self]

theorem regAt_9_op_3_3_1_2_3 (op : BitVec 4) (r : Reg) (b : BitVec 3) (c : BitVec 1) (d : BitVec 2)
    (e : BitVec 3) : regAt (op ++ regBits r ++ b ++ c ++ d ++ e) 9 = r := by
  refine regAt_of_field ?_
  iterate 4 rw [extractLsb'_append_eq_of_le (by decide)]
  rw [extractLsb'_append_eq_of_add_le (by decide), extractLsb'_eq_self]

theorem regAt_6_op_3_3_1_2_3 (op : BitVec 4) (a : BitVec 3) (r : Reg) (c : BitVec 1) (d : BitVec 2)
    (e : BitVec 3) : regAt (op ++ a ++ regBits r ++ c ++ d ++ e) 6 = r := by
  refine regAt_of_field ?_
  iterate 3 rw [extractLsb'_append_eq_of_le (by decide)]
  rw [extractLsb'_append_eq_of_add_le (by decide), extractLsb'_eq_self]

theorem regAt_0_op_3_3_1_2_3 (op : BitVec 4) (a b : BitVec 3) (c : BitVec 1) (d : BitVec 2) (r : Reg) :
    regAt (op ++ a ++ b ++ c ++ d ++ regBits r) 0 = r := by
  refine regAt_of_field ?_
  rw [extractLsb'_append_eq_of_add_le (by decide), extractLsb'_eq_self]

theorem regAt_6_op_1_2_3_6 (op : BitVec 4) (a : BitVec 1) (b : BitVec 2) (r : Reg) (d : BitVec 6) :
    regAt (op ++ a ++ b ++ regBits r ++ d) 6 = r := by
  refine regAt_of_field ?_
  rw [extractLsb'_append_eq_of_le (by decide), extractLsb'_append_eq_of_add_le (by decide), extractLsb'_eq_self]

/-! ## The row (R100) -/

/-- Every canonical word meets its row's match. -/
theorem encode_meets_row : ∀ i, encode i &&& rowMask i = rowMatch i
  | .br n z p off => RowMatch.br n z p off
  | .addReg dr sr1 sr2 => RowMatch.addReg dr sr1 sr2
  | .addImm dr sr1 imm5 => RowMatch.addImm dr sr1 imm5
  | .ld dr off => RowMatch.ld dr off
  | .st sr off => RowMatch.st sr off
  | .jsr off => RowMatch.jsr off
  | .jsrr base => RowMatch.jsrr base
  | .andReg dr sr1 sr2 => RowMatch.andReg dr sr1 sr2
  | .andImm dr sr1 imm5 => RowMatch.andImm dr sr1 imm5
  | .ldr dr base off => RowMatch.ldr dr base off
  | .str sr base off => RowMatch.str sr base off
  | .rti low => RowMatch.rti low
  | .not dr sr => RowMatch.not dr sr
  | .ldi dr off => RowMatch.ldi dr off
  | .sti sr off => RowMatch.sti sr off
  | .jmp base => RowMatch.jmp base
  | .res low => RowMatch.res low
  | .lea dr off => RowMatch.lea dr off
  | .trap vect => RowMatch.trap vect
  | .getc => RowMatch.getc
  | .out => RowMatch.out
  | .puts => RowMatch.puts
  | .inp => RowMatch.inp
  | .putsp => RowMatch.putsp
  | .halt => RowMatch.halt
  | .ret => RowMatch.ret

theorem opcode_rowMask (i : Instr) : opcode (rowMask i) = BitVec.allOnes 4 := by
  cases i <;> (simp only [rowMask]; rfl)

theorem opcode_encode (i : Instr) {row : Word} (h : rowMatch i = row) : opcode (encode i) = opcode row :=
  h ▸ opcode_of_match (encode_meets_row i) (opcode_rowMask i)

/-! ## Opcode 9 -/

theorem decode_of_opcode_not {w : Word} (h : opcode w = 0x9) : decode w = .not (regAt w 9) (regAt w 6) := by
  simp [decode, h, regField_eq_regAt]

/-! ## The vectors that have no service (R6, R160) -/

theorem isServiceVector_eq_false_iff {v : BitVec 8} : isServiceVector v = false ↔
    v ≠ 0x20 ∧ v ≠ 0x21 ∧ v ≠ 0x22 ∧ v ≠ 0x23 ∧ v ≠ 0x24 ∧ v ≠ 0x25 := by
  simp only [isServiceVector, Bool.or_eq_false_iff, beq_eq_false_iff_ne, and_assoc]

theorem decodeTrap_ordinary {w : Word} (ordinary : isServiceVector (w.extractLsb' 0 8) = false) :
    decodeTrap w = .trap (w.extractLsb' 0 8) := by
  obtain ⟨notGetc, notOut, notPuts, notIn, notPutsp, notHalt⟩ := isServiceVector_eq_false_iff.mp ordinary
  rw [decodeTrap, if_neg notGetc, if_neg notOut, if_neg notPuts, if_neg notIn, if_neg notPutsp, if_neg notHalt]

end Sys2Proof.Proofs
end

section
/-! Decoding what the encoder wrote (`30_encoding.md` R94, R101). -/

namespace Sys2Proof.Proofs
open Sys2Proof.Machine Sys2Proof.Safety Sys2Proof.Laws

/-- BR's three mask bits, one above the other over the offset. -/
theorem decode_brWord (n z p : Bool) (off : BitVec 9) : decode (encode (.br n z p off)) = .br n z p off := by
  have bit9 : (encode (.br n z p off)).getLsbD 9 = p := (bits_op_1_1_1_9 _ _ _ _ _ 9).trans (by simp)
  have bit10 : (encode (.br n z p off)).getLsbD 10 = z := (bits_op_1_1_1_9 _ _ _ _ _ 10).trans (by simp)
  have bit11 : (encode (.br n z p off)).getLsbD 11 = n := (bits_op_1_1_1_9 _ _ _ _ _ 11).trans (by simp)
  have offset : (encode (.br n z p off)).setWidth 9 = off := BitVec.setWidth_append_eq_right
  rw [decode_of_opcode_br (opcode_encode _ (row := 0x0000) rfl), bit9, bit10, bit11, offset]

theorem decode_trapWord (v : BitVec 8) (ordinary : isServiceVector v = false) :
    decode (encode (.trap v)) = .trap v := by
  have vector : (encode (.trap v)).extractLsb' 0 8 = v :=
    (BitVec.extractLsb'_append_eq_of_add_le (by decide)).trans BitVec.extractLsb'_eq_self
  rw [decode_of_opcode_trap (opcode_encode _ (row := 0xF000) rfl), decodeTrap_ordinary (vector.symm ▸ ordinary), vector]

/-- Settles O8: row by row, the opcode and the form bit from the row's match, each field from the format. -/
theorem decodeOfEncode : Obligations.DecodeOfEncode := by
  intro i wf
  have op := opcode_encode i rfl
  cases i with simp only [rowMatch] at op
  | br n z p off => exact decode_brWord n z p off
  | addReg dr sr1 sr2 =>
    have form : (encode (.addReg dr sr1 sr2)).getLsbD 5 = false := bits_op_3_3_1_2_3 _ _ _ _ _ _ 5
    rw [decode_of_opcode_add op, form, if_neg Bool.false_ne_true, encode, regAt_9_op_3_3_1_2_3,
      regAt_6_op_3_3_1_2_3, regAt_0_op_3_3_1_2_3]
  | addImm dr sr1 imm5 =>
    have form : (encode (.addImm dr sr1 imm5)).getLsbD 5 = true := bits_op_3_3_1_5 _ _ _ _ _ 5
    rw [decode_of_opcode_add op, form, if_pos rfl, encode, regAt_9_op_3_3_1_5, regAt_6_op_3_3_1_5,
      BitVec.setWidth_append_eq_right]
  | ld dr off =>
    rw [decode_of_opcode_ld op, encode, regAt_9_op_3_9, BitVec.setWidth_append_eq_right]
  | st sr off =>
    rw [decode_of_opcode_st op, encode, regAt_9_op_3_9, BitVec.setWidth_append_eq_right]
  | jsr off =>
    have form : (encode (.jsr off)).getLsbD 11 = true := bits_op_1_11 _ _ _ 11
    rw [decode_of_opcode_jsr op, form, if_pos rfl, encode, BitVec.setWidth_append_eq_right]
  | jsrr base =>
    have form : (encode (.jsrr base)).getLsbD 11 = false := bits_op_1_2_3_6 _ _ _ _ _ 11
    rw [decode_of_opcode_jsr op, form, if_neg Bool.false_ne_true, encode, regAt_6_op_1_2_3_6]
  | andReg dr sr1 sr2 =>
    have form : (encode (.andReg dr sr1 sr2)).getLsbD 5 = false := bits_op_3_3_1_2_3 _ _ _ _ _ _ 5
    rw [decode_of_opcode_and op, form, if_neg Bool.false_ne_true, encode, regAt_9_op_3_3_1_2_3,
      regAt_6_op_3_3_1_2_3, regAt_0_op_3_3_1_2_3]
  | andImm dr sr1 imm5 =>
    have form : (encode (.andImm dr sr1 imm5)).getLsbD 5 = true := bits_op_3_3_1_5 _ _ _ _ _ 5
    rw [decode_of_opcode_and op, form, if_pos rfl, encode, regAt_9_op_3_3_1_5, regAt_6_op_3_3_1_5,
      BitVec.setWidth_append_eq_right]
  | ldr dr base off =>
    rw [decode_of_opcode_ldr op, encode, regAt_9_op_3_3_6, regAt_6_op_3_3_6, BitVec.setWidth_append_eq_right]
  | str sr base off =>
    rw [decode_of_opcode_str op, encode, regAt_9_op_3_3_6, regAt_6_op_3_3_6, BitVec.setWidth_append_eq_right]
  | rti low =>
    rw [decode_of_opcode_rti op, encode, BitVec.setWidth_append_eq_right]
  | not dr sr =>
    rw [decode_of_opcode_not op, encode, regAt_9_op_3_3_6, regAt_6_op_3_3_6]
  | ldi dr off =>
    rw [decode_of_opcode_ldi op, encode, regAt_9_op_3_9, BitVec.setWidth_append_eq_right]
  | sti sr off =>
    rw [decode_of_opcode_sti op, encode, regAt_9_op_3_9, BitVec.setWidth_append_eq_right]
  | jmp base =>
    have field : regAt (encode (.jmp base)) 6 = base := regAt_6_op_3_3_6 _ _ _ _
    rw [decode_of_opcode_jmp op, field, if_neg (bne_iff_ne.mp wf)]
  | res low =>
    rw [decode_of_opcode_res op, encode, BitVec.setWidth_append_eq_right]
  | lea dr off =>
    rw [decode_of_opcode_lea op, encode, regAt_9_op_3_9, BitVec.setWidth_append_eq_right]
  | trap v => exact decode_trapWord v (Bool.not_eq_true' _ ▸ wf)
  | getc => rfl
  | out => rfl
  | puts => rfl
  | inp => rfl
  | putsp => rfl
  | halt => rfl
  | ret => rfl

end Sys2Proof.Proofs
end

section
/-! SUPPORT. A word put together again from its fields (`30_encoding.md` R94): the whole of it where every bit is in a
field, and all but the `-` bits (R98) elsewhere. -/

namespace Sys2Proof.Proofs
open Sys2Proof.Machine Sys2Proof.Safety Sys2Proof.Laws

theorem regBits_regAt (w : Word) (lo : Nat) : regBits (regAt w lo) = w.extractLsb' lo 3 := by
  rw [← regField_eq_regAt]
  rfl

theorem append_op_3_9_of_opcode {w : Word} {op : BitVec 4} (h : opcode w = op) :
    op ++ regBits (regAt w 9) ++ w.setWidth 9 = w := by
  subst h
  apply BitVec.eq_of_getLsbD_eq
  intro k inWord
  rw [bits_op_3_9, regBits_regAt]
  interval_cases k <;> simp [opcode]

theorem append_op_3_3_6_of_opcode {w : Word} {op : BitVec 4} (h : opcode w = op) :
    op ++ regBits (regAt w 9) ++ regBits (regAt w 6) ++ w.setWidth 6 = w := by
  subst h
  apply BitVec.eq_of_getLsbD_eq
  intro k inWord
  rw [bits_op_3_3_6, regBits_regAt, regBits_regAt]
  interval_cases k <;> simp [opcode]

theorem append_op_1_1_1_9_of_opcode {w : Word} {op : BitVec 4} (h : opcode w = op) :
    op ++ BitVec.ofBool (w.getLsbD 11) ++ BitVec.ofBool (w.getLsbD 10) ++ BitVec.ofBool (w.getLsbD 9) ++
      w.setWidth 9 = w := by
  subst h
  apply BitVec.eq_of_getLsbD_eq
  intro k inWord
  rw [bits_op_1_1_1_9]
  interval_cases k <;> simp [opcode]

theorem append_op_3_3_1_5_of_opcode {w : Word} {op : BitVec 4} (h : opcode w = op) (form : w.getLsbD 5 = true) :
    op ++ regBits (regAt w 9) ++ regBits (regAt w 6) ++ 1#1 ++ w.setWidth 5 = w := by
  subst h
  apply BitVec.eq_of_getLsbD_eq
  intro k inWord
  rw [bits_op_3_3_1_5, regBits_regAt, regBits_regAt]
  interval_cases k <;> simp [opcode, -BitVec.getLsbD_eq_getElem, form]

theorem append_op_1_11_of_opcode {w : Word} {op : BitVec 4} (h : opcode w = op) (form : w.getLsbD 11 = true) :
    op ++ 1#1 ++ w.setWidth 11 = w := by
  subst h
  apply BitVec.eq_of_getLsbD_eq
  intro k inWord
  rw [bits_op_1_11]
  interval_cases k <;> simp [opcode, -BitVec.getLsbD_eq_getElem, form]

/-- Bits 4 and 3 of register ADD and AND are in no field. -/
theorem append_op_3_3_1_2_3_of_opcode {w : Word} {op : BitVec 4} (h : opcode w = op) (form : w.getLsbD 5 = false) :
    (op ++ regBits (regAt w 9) ++ regBits (regAt w 6) ++ 0#1 ++ 0#2 ++ regBits (regAt w 0)) &&& 0xFFE7 =
      w &&& 0xFFE7 := by
  subst h
  apply BitVec.eq_of_getLsbD_eq
  intro k inWord
  rw [BitVec.getLsbD_and, BitVec.getLsbD_and, bits_op_3_3_1_2_3, regBits_regAt, regBits_regAt, regBits_regAt]
  interval_cases k <;> simp [opcode, -BitVec.getLsbD_eq_getElem, form]

/-- Bits 5 to 0 of NOT are in no field. -/
theorem append_op_3_3_ones_of_opcode {w : Word} {op : BitVec 4} (h : opcode w = op) :
    (op ++ regBits (regAt w 9) ++ regBits (regAt w 6) ++ 0x3F#6) &&& 0xFFC0 = w &&& 0xFFC0 := by
  subst h
  apply BitVec.eq_of_getLsbD_eq
  intro k inWord
  rw [BitVec.getLsbD_and, BitVec.getLsbD_and, bits_op_3_3_6, regBits_regAt, regBits_regAt]
  interval_cases k <;> simp [opcode]

/-- Bits 11 to 9 and 5 to 0 of JMP are in no field. -/
theorem append_op_0_3_0_of_opcode {w : Word} {op : BitVec 4} (h : opcode w = op) :
    (op ++ 0#3 ++ regBits (regAt w 6) ++ 0#6) &&& 0xF1C0 = w &&& 0xF1C0 := by
  subst h
  apply BitVec.eq_of_getLsbD_eq
  intro k inWord
  rw [BitVec.getLsbD_and, BitVec.getLsbD_and, bits_op_3_3_6, regBits_regAt]
  interval_cases k <;> simp [opcode]

/-- Bits 10, 9 and 5 to 0 of JSRR are in no field. -/
theorem append_op_1_0_3_0_of_opcode {w : Word} {op : BitVec 4} (h : opcode w = op) (form : w.getLsbD 11 = false) :
    (op ++ 0#1 ++ 0#2 ++ regBits (regAt w 6) ++ 0#6) &&& 0xF9C0 = w &&& 0xF9C0 := by
  subst h
  apply BitVec.eq_of_getLsbD_eq
  intro k inWord
  rw [BitVec.getLsbD_and, BitVec.getLsbD_and, bits_op_1_2_3_6, regBits_regAt]
  interval_cases k <;> simp [opcode, -BitVec.getLsbD_eq_getElem, form]

/-- Bits 11 to 8 of TRAP are in no field. -/
theorem append_op_0_8_of_opcode {w : Word} {op : BitVec 4} (h : opcode w = op) :
    (op ++ 0#4 ++ w.extractLsb' 0 8) &&& 0xF0FF = w &&& 0xF0FF := by
  subst h
  apply BitVec.eq_of_getLsbD_eq
  intro k inWord
  rw [BitVec.getLsbD_and, BitVec.getLsbD_and, bits_op_4_8]
  interval_cases k <;> simp [opcode]

end Sys2Proof.Proofs
end

section
/-! Encoding what the decoder read, and the bits the decoder does not examine (`30_encoding.md` R98, R100, R101). -/

namespace Sys2Proof.Proofs
open Sys2Proof.Machine Sys2Proof.Safety Sys2Proof.Laws

/-! ## The seven rows of opcode 15 -/

/-- The canonical word of each row is opcode 15, four zeros and the vector the row was chosen by. -/
theorem encode_decodeTrap (w : Word) : encode (decodeTrap w) = 0xF#4 ++ 0#4 ++ w.extractLsb' 0 8 := by
  unfold decodeTrap
  dsimp only
  split_ifs with getc out puts inp putsp halt
  · rw [getc]; rfl
  · rw [out]; rfl
  · rw [puts]; rfl
  · rw [inp]; rfl
  · rw [putsp]; rfl
  · rw [halt]; rfl
  · rfl

theorem examinedBits_decodeTrap (w : Word) : examinedBits (decodeTrap w) = 0xF0FF := by
  unfold decodeTrap
  dsimp only
  split_ifs <;> rfl

theorem wellFormed_decodeTrap (w : Word) : WellFormed (decodeTrap w) = true := by
  unfold decodeTrap
  dsimp only
  split_ifs with getc out puts inp putsp halt
  case neg => exact (Bool.not_eq_true' _).mpr (isServiceVector_eq_false_iff.mpr ⟨getc, out, puts, inp, putsp, halt⟩)
  all_goals rfl

/-! ## Every word -/

theorem opcode_cases (w : Word) :
    opcode w = 0x0 ∨ opcode w = 0x1 ∨ opcode w = 0x2 ∨ opcode w = 0x3 ∨ opcode w = 0x4 ∨ opcode w = 0x5 ∨
    opcode w = 0x6 ∨ opcode w = 0x7 ∨ opcode w = 0x8 ∨ opcode w = 0x9 ∨ opcode w = 0xA ∨ opcode w = 0xB ∨
    opcode w = 0xC ∨ opcode w = 0xD ∨ opcode w = 0xE ∨ opcode w = 0xF := by
  generalize opcode w = op
  revert op
  decide

/-- The instruction a word decodes to is well formed, and its canonical word agrees with the word on the bits
examined. -/
def DecodesFaithfully (w : Word) (i : Instr) : Prop :=
  WellFormed i = true ∧ encode i &&& examinedBits i = w &&& examinedBits i

theorem DecodesFaithfully.of_encode_eq {w : Word} {i : Instr} (wf : WellFormed i = true) (whole : encode i = w) :
    DecodesFaithfully w i :=
  ⟨wf, by rw [whole]⟩

theorem decode_faithful (w : Word) : DecodesFaithfully w (decode w) := by
  rcases opcode_cases w with
    br | add | ld | st | jsr | and | ldr | str | rti | not | ldi | sti | jmp | res | lea | trap
  · rw [decode_of_opcode_br br]
    exact .of_encode_eq rfl (append_op_1_1_1_9_of_opcode br)
  · rw [decode_of_opcode_add add]
    cases form : w.getLsbD 5
    · exact ⟨rfl, append_op_3_3_1_2_3_of_opcode add form⟩
    · exact .of_encode_eq rfl (append_op_3_3_1_5_of_opcode add form)
  · rw [decode_of_opcode_ld ld]
    exact .of_encode_eq rfl (append_op_3_9_of_opcode ld)
  · rw [decode_of_opcode_st st]
    exact .of_encode_eq rfl (append_op_3_9_of_opcode st)
  · rw [decode_of_opcode_jsr jsr]
    cases form : w.getLsbD 11
    · exact ⟨rfl, append_op_1_0_3_0_of_opcode jsr form⟩
    · exact .of_encode_eq rfl (append_op_1_11_of_opcode jsr form)
  · rw [decode_of_opcode_and and]
    cases form : w.getLsbD 5
    · exact ⟨rfl, append_op_3_3_1_2_3_of_opcode and form⟩
    · exact .of_encode_eq rfl (append_op_3_3_1_5_of_opcode and form)
  · rw [decode_of_opcode_ldr ldr]
    exact .of_encode_eq rfl (append_op_3_3_6_of_opcode ldr)
  · rw [decode_of_opcode_str str]
    exact .of_encode_eq rfl (append_op_3_3_6_of_opcode str)
  · rw [decode_of_opcode_rti rti]
    exact .of_encode_eq rfl (append_low12_of_opcode rti)
  · rw [decode_of_opcode_not not]
    exact ⟨rfl, append_op_3_3_ones_of_opcode not⟩
  · rw [decode_of_opcode_ldi ldi]
    exact .of_encode_eq rfl (append_op_3_9_of_opcode ldi)
  · rw [decode_of_opcode_sti sti]
    exact .of_encode_eq rfl (append_op_3_9_of_opcode sti)
  · have word := append_op_0_3_0_of_opcode jmp
    rw [decode_of_opcode_jmp jmp]
    split_ifs with base
    · rw [base] at word
      exact ⟨rfl, word⟩
    · exact ⟨bne_iff_ne.mpr base, word⟩
  · rw [decode_of_opcode_res res]
    exact .of_encode_eq rfl (append_low12_of_opcode res)
  · rw [decode_of_opcode_lea lea]
    exact .of_encode_eq rfl (append_op_3_9_of_opcode lea)
  · rw [decode_of_opcode_trap trap]
    refine ⟨wellFormed_decodeTrap w, ?_⟩
    rw [encode_decodeTrap, examinedBits_decodeTrap]
    exact append_op_0_8_of_opcode trap

/-- The decoder examines every bit of the row's mask. -/
theorem examinedBits_and_rowMask (i : Instr) : examinedBits i &&& rowMask i = rowMask i := by
  cases i <;> (simp only [examinedBits, rowMask]; rfl)

theorem meets_row_of_faithful {w : Word} {i : Instr} (h : encode i &&& examinedBits i = w &&& examinedBits i) :
    w &&& rowMask i = rowMatch i :=
  calc w &&& rowMask i
    _ = w &&& examinedBits i &&& rowMask i := by rw [BitVec.and_assoc, examinedBits_and_rowMask]
    _ = encode i &&& examinedBits i &&& rowMask i := by rw [h]
    _ = encode i &&& rowMask i := by rw [BitVec.and_assoc, examinedBits_and_rowMask]
    _ = rowMatch i := encode_meets_row i

/-- Settles O9: each opcode's fields put together again give the bits examined, and the row's mask is among them. -/
theorem encodeOfDecode : Obligations.EncodeOfDecode := by
  intro w
  obtain ⟨wf, examined⟩ := decode_faithful w
  exact ⟨wf, meets_row_of_faithful examined, examined⟩

/-! ## Two words that agree on the bits examined -/

theorem extractLsb'_eq_of_masked {v w mask : Word} (h : v &&& mask = w &&& mask) (lo n : Nat)
    (covers : mask.extractLsb' lo n = BitVec.allOnes n) : v.extractLsb' lo n = w.extractLsb' lo n :=
  calc v.extractLsb' lo n
    _ = v.extractLsb' lo n &&& mask.extractLsb' lo n := by rw [covers, BitVec.and_allOnes]
    _ = w.extractLsb' lo n &&& mask.extractLsb' lo n := by
      rw [← BitVec.extractLsb'_and, h, BitVec.extractLsb'_and]
    _ = w.extractLsb' lo n := by rw [covers, BitVec.and_allOnes]

theorem regAt_eq_of_masked {v w mask : Word} (h : v &&& mask = w &&& mask) (lo : Nat)
    (covers : mask.extractLsb' lo 3 = BitVec.allOnes 3) : regAt v lo = regAt w lo := by
  rw [← regField_eq_regAt, ← regField_eq_regAt, regField, regField, extractLsb'_eq_of_masked h lo 3 covers]

/-- A row's match passes from a word to one that agrees with it on more bits than the row's mask. -/
theorem match_of_masked {v w wide mask row : Word} (agree : v &&& wide = w &&& wide) (narrow : wide &&& mask = mask)
    (h : v &&& mask = row) : w &&& mask = row := by
  rw [← narrow, ← BitVec.and_assoc, ← agree, BitVec.and_assoc, narrow, h]

/-- Register ADD and AND: bits 4 and 3. -/
theorem decode_eq_of_agree_register {v w : Word} (row : v &&& 0xF020 = 0x1000 ∨ v &&& 0xF020 = 0x5000)
    (agree : v &&& 0xFFE7 = w &&& 0xFFE7) : decode v = decode w := by
  have fields : regAt v 9 = regAt w 9 ∧ regAt v 6 = regAt w 6 ∧ regAt v 0 = regAt w 0 :=
    ⟨regAt_eq_of_masked agree 9 rfl, regAt_eq_of_masked agree 6 rfl, regAt_eq_of_masked agree 0 rfl⟩
  obtain ⟨dr, sr1, sr2⟩ := fields
  rcases row with add | and
  · have addW : w &&& 0xF020 = 0x1000 := match_of_masked agree rfl add
    have formV : v.getLsbD 5 = false := getLsbD_of_match add rfl
    have formW : w.getLsbD 5 = false := getLsbD_of_match addW rfl
    rw [decode_of_opcode_add (opcode_of_match add rfl), decode_of_opcode_add (opcode_of_match addW rfl),
      formV, formW, dr, sr1, sr2]
    rfl
  · have andW : w &&& 0xF020 = 0x5000 := match_of_masked agree rfl and
    have formV : v.getLsbD 5 = false := getLsbD_of_match and rfl
    have formW : w.getLsbD 5 = false := getLsbD_of_match andW rfl
    rw [decode_of_opcode_and (opcode_of_match and rfl), decode_of_opcode_and (opcode_of_match andW rfl),
      formV, formW, dr, sr1, sr2]
    rfl

/-- NOT: bits 5 to 0. -/
theorem decode_eq_of_agree_not {v w : Word} (row : v &&& 0xF000 = 0x9000) (agree : v &&& 0xFFC0 = w &&& 0xFFC0) :
    decode v = decode w := by
  have rowW : w &&& 0xF000 = 0x9000 := match_of_masked agree rfl row
  rw [decode_of_opcode_not (opcode_of_match row rfl), decode_of_opcode_not (opcode_of_match rowW rfl),
    regAt_eq_of_masked agree 9 rfl, regAt_eq_of_masked agree 6 rfl]

/-- JMP: bits 11 to 9 and 5 to 0. -/
theorem decode_eq_of_agree_jmp {v w : Word} (row : v &&& 0xF000 = 0xC000) (agree : v &&& 0xF1C0 = w &&& 0xF1C0) :
    decode v = decode w := by
  have rowW : w &&& 0xF000 = 0xC000 := match_of_masked agree rfl row
  rw [decode_of_opcode_jmp (opcode_of_match row rfl), decode_of_opcode_jmp (opcode_of_match rowW rfl),
    regAt_eq_of_masked agree 6 rfl]

/-- JSRR: bits 10, 9 and 5 to 0. -/
theorem decode_eq_of_agree_jsrr {v w : Word} (row : v &&& 0xF800 = 0x4000) (agree : v &&& 0xF9C0 = w &&& 0xF9C0) :
    decode v = decode w := by
  have rowW : w &&& 0xF800 = 0x4000 := match_of_masked agree rfl row
  have formV : v.getLsbD 11 = false := getLsbD_of_match row rfl
  have formW : w.getLsbD 11 = false := getLsbD_of_match rowW rfl
  rw [decode_of_opcode_jsr (opcode_of_match row rfl), decode_of_opcode_jsr (opcode_of_match rowW rfl),
    formV, formW, regAt_eq_of_masked agree 6 rfl]
  rfl

/-- TRAP: bits 11 to 8. -/
theorem decode_eq_of_agree_trap {v w : Word} (row : v &&& 0xF000 = 0xF000) (agree : v &&& 0xF0FF = w &&& 0xF0FF) :
    decode v = decode w := by
  have rowW : w &&& 0xF000 = 0xF000 := match_of_masked agree rfl row
  rw [decode_of_opcode_trap (opcode_of_match row rfl), decode_of_opcode_trap (opcode_of_match rowW rfl),
    decodeTrap, decodeTrap, extractLsb'_eq_of_masked agree 0 8 rfl]

theorem exec_decode_rti {w : Word} (row : w &&& 0xF000 = 0x8000) (s : State) :
    exec (decode w) s = .next (raise (.illegalOpcode w) s) := by
  have op : opcode w = 0x8 := opcode_of_match row rfl
  rw [decode_of_opcode_rti op, exec_rti_of_opcode op]

theorem exec_decode_res {w : Word} (row : w &&& 0xF000 = 0xD000) (s : State) :
    exec (decode w) s = .next (raise (.illegalOpcode w) s) := by
  have op : opcode w = 0xD := opcode_of_match row rfl
  rw [decode_of_opcode_res op, exec_res_of_opcode op]

/-- Settles O10: five formats whose every field lies in the bits that agree; RTI and RES by the state they leave. -/
theorem unexaminedBitsAreIgnored : Obligations.UnexaminedBitsAreIgnored :=
  fun _ _ => ⟨decode_eq_of_agree_register, decode_eq_of_agree_not, decode_eq_of_agree_jmp, decode_eq_of_agree_jsrr,
    decode_eq_of_agree_trap, fun v w s => ⟨_, _, exec_decode_rti v s, exec_decode_rti w s, rfl⟩,
    fun v w s => ⟨_, _, exec_decode_res v s, exec_decode_res w s, rfl⟩⟩

end Sys2Proof.Proofs
end

section
/-! SUPPORT. What each request of an instruction answers and leaves (`20_memory.md` R52, R62), said backwards: from the
answer to the state before it. -/

namespace Sys2Proof.Proofs
open Sys2Proof.Machine Sys2Proof.Safety Sys2Proof.Laws

/-! ## The gateway read -/

/-- A read that completes is plain, or is of KBSR and finds no key or one. -/
theorem memRead_done_cases {a w : Word} {s t : State} (read : memRead a s = .done w t) :
    (a ≠ kbsr ∧ w = s.mem.wordAt a ∧ t = s) ∨
    (a = kbsr ∧ w = 0 ∧ t = { s with mem := s.mem.setWord kbsr 0, console := s.console.afterPoll }) ∨
    (a = kbsr ∧ w = keyReady ∧ ∃ k, t = gotKey k s.console.afterPoll.afterKey s) := by
  by_cases atKbsr : a = kbsr
  · subst atKbsr
    rcases memRead_kbsr_cases s with noKey | ⟨k, key, -⟩ | raised
    · rw [noKey] at read
      cases read
      exact .inr (.inl ⟨rfl, rfl, rfl⟩)
    · rw [key] at read
      cases read
      exact .inr (.inr ⟨rfl, rfl, k, rfl⟩)
    · rw [raised] at read
      cases read
  · rw [memRead_plain s atKbsr] at read
    cases read
    exact .inl ⟨atKbsr, rfl, rfl⟩

/-- Only a read of KBSR raises, once its poll has been answered. -/
theorem memRead_raised_eq {a : Word} {s t : State} (read : memRead a s = .raised t) :
    a = kbsr ∧ t = { s with console := s.console.afterPoll, fault := some .consoleInputEnd } := by
  by_cases atKbsr : a = kbsr
  · subst atKbsr
    rcases memRead_kbsr_cases s with noKey | ⟨_, key, -⟩ | raised
    · rw [noKey] at read; cases read
    · rw [key] at read; cases read
    · rw [raised] at read; cases read; exact ⟨rfl, rfl⟩
  · rw [memRead_plain s atKbsr] at read; cases read

theorem memRead_done_fault {a w : Word} {s t : State} (read : memRead a s = .done w t) : t.fault = s.fault := by
  rcases memRead_done_cases read with ⟨-, -, rfl⟩ | ⟨-, -, rfl⟩ | ⟨-, -, k, rfl⟩ <;> rfl

theorem memRead_out {a : Word} {s t : State} (h : Leaves (memRead a s) t) : t.out = s.out := by
  rcases h with ⟨w, read⟩ | read
  · rcases memRead_done_cases read with ⟨-, -, rfl⟩ | ⟨-, -, rfl⟩ | ⟨-, -, k, rfl⟩ <;> rfl
  · obtain ⟨-, rfl⟩ := memRead_raised_eq read
    rfl

/-! ## The console read -/

theorem consoleRead_done_eq {k : Byte} {s t : State} (read : consoleRead s = .done k t) :
    t = { s with console := s.console.afterKey } := by
  rcases consoleRead_cases s with ⟨_, key, -⟩ | ⟨-, -, raised⟩ | ⟨-, -, stuck⟩
  · rw [key] at read; cases read; rfl
  · rw [raised] at read; cases read
  · rw [stuck] at read; cases read

theorem consoleRead_raised_eq {s t : State} (read : consoleRead s = .raised t) : t = raise .consoleInputEnd s := by
  rcases consoleRead_cases s with ⟨_, key, -⟩ | ⟨-, -, raised⟩ | ⟨-, -, stuck⟩
  · rw [key] at read; cases read
  · rw [raised] at read; cases read; rfl
  · rw [stuck] at read; cases read

theorem consoleRead_mem {s t : State} (h : Leaves (consoleRead s) t) : t.mem = s.mem := by
  rcases h with ⟨k, read⟩ | read
  · rw [consoleRead_done_eq read]
  · rw [consoleRead_raised_eq read, raise_mem]

theorem consoleRead_out {s t : State} (h : Leaves (consoleRead s) t) : t.out = s.out := by
  rcases h with ⟨k, read⟩ | read
  · rw [consoleRead_done_eq read]
  · rw [consoleRead_raised_eq read, raise_out]

end Sys2Proof.Proofs
end

section
/-! SUPPORT. What one instruction can have done, said once for all 26 rows: its requests, and then at most one write of
its own. The whole-machine rules (`10_state.md` sections 1 to 8) are read off it. -/

namespace Sys2Proof.Proofs
open Sys2Proof.Machine Sys2Proof.Safety Sys2Proof.Laws

/-! ## Requests -/

/-- What the requests of `i` to memory and the console can have changed by `t`. -/
structure Requests (i : Instr) (s t : State) : Prop extends ReadKeeps s t where
  memory : ¬ readsMemory i → t.mem = s.mem
  cause : ¬ readsMemory i → ¬ readsConsole i → t.fault = s.fault
  display : ¬ writesConsole i → t.out = s.out

theorem Requests.refl (i : Instr) (s : State) : Requests i s s :=
  { ReadKeeps.refl s with memory := fun _ => rfl, cause := fun _ _ => rfl, display := fun _ => rfl }

theorem Requests.trans {i : Instr} {s t u : State} (first : Requests i s t) (second : Requests i t u) :
    Requests i s u :=
  { first.toReadKeeps.trans second.toReadKeeps with
    memory := fun noRead => (second.memory noRead).trans (first.memory noRead)
    cause := fun noRead noInput => (second.cause noRead noInput).trans (first.cause noRead noInput)
    display := fun noWrite => (second.display noWrite).trans (first.display noWrite) }

theorem Requests.of_memRead {i : Instr} {a : Word} {s t : State} (reads : readsMemory i)
    (h : Leaves (memRead a s) t) : Requests i s t :=
  { memRead_keeps h with
    memory := fun noRead => absurd reads noRead
    cause := fun noRead => absurd reads noRead
    display := fun _ => memRead_out h }

theorem Requests.of_consoleRead {i : Instr} {s t : State} (reads : readsConsole i)
    (h : Leaves (consoleRead s) t) : Requests i s t :=
  { consoleRead_keeps h with
    memory := fun _ => consoleRead_mem h
    cause := fun _ noInput => absurd reads noInput
    display := fun _ => consoleRead_out h }

theorem Requests.of_consoleWrite {i : Instr} (writes : writesConsole i) (b : Byte) (s : State) :
    Requests i s (consoleWrite b s) :=
  { consoleWrite_keeps b s with
    memory := fun _ => rfl
    cause := fun _ _ => rfl
    display := fun noWrite => absurd writes noWrite }

theorem Requests.of_consoleWriteAll {i : Instr} (writes : writesConsole i) (bs : List Byte) :
    ∀ s : State, Requests i s (consoleWriteAll bs s) := by
  induction bs with
  | nil => exact Requests.refl i
  | cons b bs ih => exact fun s => (Requests.of_consoleWrite writes b s).trans (ih (consoleWrite b s))

/-- A string walk reads memory and writes to the display. -/
theorem Requests.of_walk {i : Instr} {s t : State} (reads : readsMemory i) (writes : writesConsole i)
    (keeps : ReadKeeps s t) : Requests i s t :=
  { keeps with
    memory := fun noRead => absurd reads noRead
    cause := fun noRead => absurd reads noRead
    display := fun noWrite => absurd writes noWrite }

/-! ## The instruction -/

/-- GETC and IN, by their own rows or by TRAP's. -/
def takesInput (i : Instr) : Prop := i = .getc ∨ i = .inp ∨ i = .trap 0x20 ∨ i = .trap 0x23

/-- HALT, by its own row or by TRAP's. -/
def isHalt (i : Instr) : Prop := i = .halt ∨ i = .trap 0x25

/-- JSR and JSRR. -/
def isCall (i : Instr) : Prop := (∃ off, i = .jsr off) ∨ ∃ base, i = .jsrr base

/-- The states an instruction that completes or raises can leave: what its requests left, and its own last write. -/
inductive ExecEffect (i : Instr) (s : State) : State → Prop where
  /-- The seven flag writers. -/
  | dest {dr : Reg} {v : Word} {s1 : State} (names : destOf i = some dr) (requests : Requests i s s1) :
      ExecEffect i s (writeDest dr v s1)
  /-- ST, STI, STR. -/
  | store {a v : Word} {s1 : State} (stores : isStore i) (requests : Requests i s s1) :
      ExecEffect i s (storeWord a v s1)
  /-- A load, or the pointer read of STI, that raised. -/
  | readRaised {t : State} (reads : readsMemory i) (requests : Requests i s t)
      (raised : t.fault = some .consoleInputEnd) : ExecEffect i s t
  /-- BR, JMP, RET. -/
  | jump {target : Word} (transfers : writesPc i) : ExecEffect i s (s.setPc target)
  /-- JSR, JSRR. -/
  | call {target : Word} (calls : isCall i) : ExecEffect i s ((linkR7 s).setPc target)
  /-- RTI, RES. -/
  | illegal {w : Word} (raises : alwaysRaises i) (legal : CauseLegal (.illegalOpcode w)) :
      ExecEffect i s (raise (.illegalOpcode w) s)
  /-- A service that writes no register but R7, or whose read raised. -/
  | served {t : State} (trap : isTrap i) (requests : Requests i (linkR7 s) t) : ExecEffect i s t
  /-- GETC and IN that got a byte. -/
  | input {v : Word} {s1 : State} (takes : takesInput i) (requests : Requests i (linkR7 s) s1) :
      ExecEffect i s (s1.setReg 0 v)
  /-- HALT. -/
  | halt {s1 : State} (halts : isHalt i) (requests : Requests i (linkR7 s) s1) : ExecEffect i s (clearRun s1)
  /-- TRAP with a vector that has no service. -/
  | unknown {v : BitVec 8} (raises : alwaysRaises i) (trap : isTrap i) (legal : CauseLegal (.unknownTrapVector v)) :
      ExecEffect i s (raise (.unknownTrapVector v) (linkR7 s))

theorem ExecEffect.of_next {i : Instr} {s t u : State} (effect : ExecEffect i s u)
    (h : (.next u : Host.Outcome State Fault Refusal) = .next t) : ExecEffect i s t := by
  cases h
  exact effect

theorem ExecEffect.of_load {i : Instr} {dr : Reg} {a : Word} {s s1 t : State} (names : destOf i = some dr)
    (reads : readsMemory i) (before : Requests i s s1) (h : Leaves (loadInto dr a s1) t) : ExecEffect i s t := by
  rcases loadInto_leaves h with ⟨v, s2, read, rfl⟩ | read
  · exact .dest names (before.trans (.of_memRead reads (.inl ⟨v, read⟩)))
  · refine .readRaised reads (before.trans (.of_memRead reads (.inr read))) ?_
    rw [(memRead_raised_eq read).2]

theorem ExecEffect.of_ldi {dr : Reg} {off : BitVec 9} {s t : State}
    (h : Leaves ((eaInd off s).andThen fun p s => loadInto dr p s) t) : ExecEffect (.ldi dr off) s t := by
  rcases leaves_andThen h with ⟨p, s1, pointer, load⟩ | pointer
  · exact .of_load rfl trivial (.of_memRead trivial (.inl ⟨p, pointer⟩)) load
  · refine .readRaised trivial (.of_memRead trivial (.inr pointer)) ?_
    rw [(memRead_raised_eq pointer).2]

theorem ExecEffect.of_sti {sr : Reg} {off : BitVec 9} {s t : State}
    (h : Leaves ((eaInd off s).andThen fun p s => .done () (memWrite p (s.reg sr) s)) t) :
    ExecEffect (.sti sr off) s t := by
  rcases leaves_andThen h with ⟨p, s1, pointer, write⟩ | pointer
  · rw [(leaves_done _ _ _).mp write]
    exact .store trivial (.of_memRead trivial (.inl ⟨p, pointer⟩))
  · refine .readRaised trivial (.of_memRead trivial (.inr pointer)) ?_
    rw [(memRead_raised_eq pointer).2]

/-! ## The services -/

theorem readsConsole_of_takesInput {i : Instr} (takes : takesInput i) : readsConsole i := by
  rcases takes with rfl | rfl | rfl | rfl
  · trivial
  · trivial
  · exact .inl rfl
  · exact .inr rfl

theorem isTrap_of_takesInput {i : Instr} (takes : takesInput i) : isTrap i := by
  rcases takes with rfl | rfl | rfl | rfl <;> trivial

theorem isTrap_of_isHalt {i : Instr} (halts : isHalt i) : isTrap i := by
  rcases halts with rfl | rfl <;> trivial

theorem ExecEffect.of_getc {i : Instr} {s t : State} (takes : takesInput i)
    (h : Leaves (serviceGetc (linkR7 s)) t) : ExecEffect i s t := by
  have reads := readsConsole_of_takesInput takes
  rcases leaves_andThen h with ⟨k, s1, read, write⟩ | read
  · rw [(leaves_done _ _ _).mp write]
    exact .input takes (.of_consoleRead reads (.inl ⟨k, read⟩))
  · exact .served (isTrap_of_takesInput takes) (.of_consoleRead reads (.inr read))

theorem ExecEffect.of_in {i : Instr} {s t : State} (takes : takesInput i) (writes : writesConsole i)
    (h : Leaves (serviceIn (linkR7 s)) t) : ExecEffect i s t := by
  have reads := readsConsole_of_takesInput takes
  have prompted := Requests.of_consoleWriteAll writes prompt (linkR7 s)
  rw [serviceIn, consoleFlush_eq] at h
  rcases leaves_andThen h with ⟨k, s1, read, write⟩ | read
  · rw [(leaves_done _ _ _).mp write]
    exact .input takes
      ((prompted.trans (.of_consoleRead reads (.inl ⟨k, read⟩))).trans (.of_consoleWrite writes k s1))
  · exact .served (isTrap_of_takesInput takes) (prompted.trans (.of_consoleRead reads (.inr read)))

theorem ExecEffect.of_out {i : Instr} {s t : State} (trap : isTrap i) (writes : writesConsole i)
    (h : Leaves (serviceOut (linkR7 s)) t) : ExecEffect i s t := by
  rw [(leaves_done _ _ _).mp h]
  exact .served trap (.of_consoleWrite writes _ _)

theorem ExecEffect.of_halt {i : Instr} {s t : State} (halts : isHalt i) (writes : writesConsole i)
    (h : Leaves (serviceHalt (linkR7 s)) t) : ExecEffect i s t := by
  rw [(leaves_done _ _ _).mp h]
  exact .halt halts (.of_consoleWriteAll writes haltMessage _)

theorem ExecEffect.of_puts {i : Instr} {s t : State} (trap : isTrap i) (reads : readsMemory i)
    (writes : writesConsole i) (h : Leaves (servicePuts (linkR7 s)) t) : ExecEffect i s t :=
  .served trap (.of_walk reads writes (putsWalk_keeps _ _ h))

theorem ExecEffect.of_putsp {i : Instr} {s t : State} (trap : isTrap i) (reads : readsMemory i)
    (writes : writesConsole i) (h : Leaves (servicePutsp (linkR7 s)) t) : ExecEffect i s t :=
  .served trap (.of_walk reads writes (putspWalk_keeps _ _ h))

/-- The vectors without a service lie on either side of the six that have one. -/
theorem isServiceVector_eq_false_iff_outside {v : BitVec 8} :
    isServiceVector v = false ↔ v.toNat < 0x20 ∨ 0x25 < v.toNat := by
  rw [isServiceVector_eq_false_iff]
  bv_omega

theorem ExecEffect.of_trap {v : BitVec 8} {s t : State} (h : Leaves (service v (linkR7 s)) t) :
    ExecEffect (.trap v) s t := by
  unfold service at h
  split_ifs at h with getc out puts inp putsp halt
  · subst getc
    exact .of_getc (.inr (.inr (.inl rfl))) h
  · exact .of_out trivial (.inl out) h
  · exact .of_puts trivial (.inl puts) (.inr (.inl puts)) h
  · subst inp
    exact .of_in (.inr (.inr (.inr rfl))) (.inr (.inr (.inl rfl))) h
  · exact .of_putsp trivial (.inr putsp) (.inr (.inr (.inr (.inl putsp)))) h
  · subst halt
    exact .of_halt (.inr rfl) (.inr (.inr (.inr (.inr rfl)))) h
  · have outside := isServiceVector_eq_false_iff_outside.mp
      (isServiceVector_eq_false_iff.mpr ⟨getc, out, puts, inp, putsp, halt⟩)
    rw [(leaves_raised _ _).mp h]
    exact .unknown outside trivial outside

/-! ## Every row -/

theorem causeLegal_rti (low : BitVec 12) : CauseLegal (.illegalOpcode (0x8#4 ++ low)) :=
  .inl (encode_meets_row (.rti low))

theorem causeLegal_res (low : BitVec 12) : CauseLegal (.illegalOpcode (0xD#4 ++ low)) :=
  .inr (encode_meets_row (.res low))

theorem exec_effect {i : Instr} {s t : State} (h : exec i s = .next t) : ExecEffect i s t := by
  cases i with
  | br n z p off =>
    rw [exec_br] at h
    split_ifs at h
    · exact .of_next (.jump trivial) h
    · exact .of_next (.jump (target := s.pc) trivial) h
  | addReg dr sr1 sr2 => exact .of_next (.dest rfl (.refl _ s)) h
  | addImm dr sr1 imm5 => exact .of_next (.dest rfl (.refl _ s)) h
  | ld dr off => exact .of_load rfl trivial (.refl _ s) (leaves_of_outcome h)
  | st sr off => exact .of_next (.store trivial (.refl _ s)) h
  | jsr off => exact .of_next (.call (.inl ⟨off, rfl⟩)) h
  | jsrr base => exact .of_next (.call (.inr ⟨base, rfl⟩)) h
  | andReg dr sr1 sr2 => exact .of_next (.dest rfl (.refl _ s)) h
  | andImm dr sr1 imm5 => exact .of_next (.dest rfl (.refl _ s)) h
  | ldr dr base off => exact .of_load rfl trivial (.refl _ s) (leaves_of_outcome h)
  | str sr base off => exact .of_next (.store trivial (.refl _ s)) h
  | rti low => exact .of_next (.illegal trivial (causeLegal_rti low)) h
  | not dr sr => exact .of_next (.dest rfl (.refl _ s)) h
  | ldi dr off => exact .of_ldi (leaves_of_outcome h)
  | sti sr off => exact .of_sti (leaves_of_outcome h)
  | jmp base => exact .of_next (.jump trivial) h
  | res low => exact .of_next (.illegal trivial (causeLegal_res low)) h
  | lea dr off => exact .of_next (.dest rfl (.refl _ s)) h
  | trap v => exact .of_trap (leaves_of_outcome h)
  | getc => exact .of_getc (.inl rfl) (leaves_of_outcome h)
  | out => exact .of_out trivial trivial (leaves_of_outcome h)
  | puts => exact .of_puts trivial trivial trivial (leaves_of_outcome h)
  | inp => exact .of_in (.inr (.inl rfl)) trivial (leaves_of_outcome h)
  | putsp => exact .of_putsp trivial trivial trivial (leaves_of_outcome h)
  | halt => exact .of_halt (.inl rfl) trivial (leaves_of_outcome h)
  | ret => exact .of_next (.jump trivial) h

end Sys2Proof.Proofs
end

section
/-! The whole-machine rules of one instruction (`10_state.md` R20, R23, R24, R27, R30 to R32, `20_memory.md` R53, R62),
each read off what the instruction can have done. -/

namespace Sys2Proof.Proofs
open Sys2Proof.Machine Sys2Proof.Safety Sys2Proof.Laws

theorem Requests.reg {i : Instr} {s t : State} (requests : Requests i s t) (r : Reg) : t.reg r = s.reg r := by
  rw [State.reg, requests.regs, State.reg]

/-! ## Registers -/

/-- Settles O51: DR, R7 and R0 are the only registers a last write or TRAP's entry names. -/
theorem onlyNamedRegistersWritten : Obligations.OnlyNamedRegistersWritten := by
  intro i s t r h unnamed
  have notLinked (links : isTrap i ∨ isCall i) : r ≠ 7 := fun seven => unnamed (.inr (.inl ⟨seven, links⟩))
  have linked (trap : isTrap i) : (linkR7 s).reg r = s.reg r := linkR7_reg_ne s (notLinked (.inl trap))
  cases exec_effect h with
  | dest names requests =>
    have other : r ≠ _ := fun same => unnamed (.inl (same ▸ names))
    exact (writeDest_reg_ne _ _ other).trans (requests.reg r)
  | store stores requests => exact requests.reg r
  | readRaised reads requests raised => exact requests.reg r
  | jump transfers => rfl
  | call calls => exact linkR7_reg_ne s (notLinked (.inr calls))
  | illegal raises legal => rfl
  | served trap requests => exact (requests.reg r).trans (linked trap)
  | input takes requests =>
    have other : r ≠ 0 := fun zero => unnamed (.inr (.inr ⟨zero, takes⟩))
    rw [setReg_reg_ne _ _ other, requests.reg, linked (isTrap_of_takesInput takes)]
  | halt halts requests => exact (requests.reg r).trans (linked (isTrap_of_isHalt halts))
  | unknown raises trap legal => exact linked trap

/-! ## pc -/

theorem writesPc_of_isCall {i : Instr} (calls : isCall i) : writesPc i := by
  rcases calls with ⟨off, rfl⟩ | ⟨base, rfl⟩ <;> trivial

/-- Settles O52: requests and last writes leave `pc`, but for a jump's and a call's. -/
theorem onlyTransfersWritePc : Obligations.OnlyTransfersWritePc := by
  intro i s t h stays
  cases exec_effect h with
  | dest names requests => exact requests.pc
  | store stores requests => exact requests.pc
  | readRaised reads requests raised => exact requests.pc
  | jump transfers => exact absurd transfers stays
  | call calls => exact absurd (writesPc_of_isCall calls) stays
  | illegal raises legal => rfl
  | served trap requests => exact requests.pc
  | input takes requests => exact requests.pc
  | halt halts requests => exact requests.pc
  | unknown raises trap legal => rfl

/-! ## Memory -/

/-- What an instruction leaves of memory and the console is what its requests left, but for the word a store writes;
TRAP's entry, before the requests, touches neither. -/
theorem exec_requests {i : Instr} {s t : State} (h : exec i s = .next t) :
    ∃ s0 s1, (s0.mem = s.mem ∧ s0.console = s.console ∧ s0.out = s.out) ∧ Requests i s0 s1 ∧
      (t.mem = s1.mem ∨ (isStore i ∧ ∃ a v, t.mem = s1.mem.setWord a v)) ∧ t.console = s1.console ∧ t.out = s1.out := by
  have start : s.mem = s.mem ∧ s.console = s.console ∧ s.out = s.out := ⟨rfl, rfl, rfl⟩
  have linked : (linkR7 s).mem = s.mem ∧ (linkR7 s).console = s.console ∧ (linkR7 s).out = s.out := start
  cases exec_effect h with
  | dest names requests => exact ⟨_, _, start, requests, .inl rfl, rfl, rfl⟩
  | store stores requests => exact ⟨_, _, start, requests, .inr ⟨stores, _, _, rfl⟩, rfl, rfl⟩
  | readRaised reads requests raised => exact ⟨_, _, start, requests, .inl rfl, rfl, rfl⟩
  | jump transfers => exact ⟨_, _, start, .refl i s, .inl rfl, rfl, rfl⟩
  | call calls => exact ⟨_, _, start, .refl i s, .inl rfl, rfl, rfl⟩
  | illegal raises legal => exact ⟨_, _, start, .refl i s, .inl rfl, rfl, rfl⟩
  | served trap requests => exact ⟨_, _, linked, requests, .inl rfl, rfl, rfl⟩
  | input takes requests => exact ⟨_, _, linked, requests, .inl rfl, rfl, rfl⟩
  | halt halts requests => exact ⟨_, _, linked, requests, .inl rfl, rfl, rfl⟩
  | unknown raises trap legal => exact ⟨_, _, start, .refl i s, .inl rfl, rfl, rfl⟩

/-- Settles O53: without a store, what is left of memory is what the requests left. -/
theorem memoryChangesOnlyByStoreOrPoll : Obligations.MemoryChangesOnlyByStoreOrPoll := by
  intro i s t h noStore
  obtain ⟨s0, s1, ⟨mem0, -, -⟩, requests, mem | ⟨stores, -⟩, -, -⟩ := exec_requests h
  · rw [mem, ← mem0]
    exact ⟨requests.memory, requests.word⟩
  · exact absurd stores noStore

theorem exec_mem_wf {i : Instr} {s t : State} (h : exec i s = .next t) (wf : s.mem.wf) : t.mem.wf := by
  obtain ⟨s0, s1, ⟨mem0, -, -⟩, requests, mem | ⟨-, a, v, mem⟩, -, -⟩ := exec_requests h
  · rw [mem]
    exact requests.wf (mem0 ▸ wf)
  · rw [mem]
    exact setWord_wf (requests.wf (mem0 ▸ wf)) a v

/-! ## The flags -/

/-- An instruction leaves `cond`, or leaves in it the flag of its destination. -/
theorem exec_cond_cases {i : Instr} {s t : State} (h : exec i s = .next t) :
    t.cond = s.cond ∨ ∃ dr, destOf i = some dr ∧ t.cond = signFlag (t.reg dr) := by
  cases exec_effect h with
  | @dest dr v s1 names requests =>
    refine .inr ⟨dr, names, ?_⟩
    rw [writeDest_reg_self, writeDest_cond, flagsOf_eq_signFlag]
  | store stores requests => exact .inl requests.cond
  | readRaised reads requests raised => exact .inl requests.cond
  | jump transfers => exact .inl rfl
  | call calls => exact .inl rfl
  | illegal raises legal => exact .inl rfl
  | served trap requests => exact .inl requests.cond
  | input takes requests => exact .inl requests.cond
  | halt halts requests => exact .inl requests.cond
  | unknown raises trap legal => exact .inl rfl

/-- The instructions with a DR field do nothing else that ends an instruction. -/
theorem destOf_eq_none {i : Instr} (other : isStore i ∨ writesPc i ∨ isTrap i ∨ alwaysRaises i) :
    destOf i = none := by
  cases i with
  | addReg | addImm | andReg | andImm | not | ld | ldi | ldr | lea =>
    rcases other with h | h | h | h <;> exact h.elim
  | _ => rfl

/-- An instruction with a DR field writes it with its flag, or its read raised. -/
theorem exec_dest_cases {i : Instr} {s t : State} {dr : Reg} (h : exec i s = .next t) (names : destOf i = some dr) :
    t.cond = signFlag (t.reg dr) ∨ (t.fault = some .consoleInputEnd ∧ t.cond = s.cond ∧ t.reg dr = s.reg dr) := by
  have noOther (other : isStore i ∨ writesPc i ∨ isTrap i ∨ alwaysRaises i) : False := by
    rw [destOf_eq_none other] at names
    cases names
  cases exec_effect h with
  | dest names' requests =>
    cases names.symm.trans names'
    exact .inl (by rw [writeDest_reg_self, writeDest_cond, flagsOf_eq_signFlag])
  | readRaised reads requests raised => exact .inr ⟨raised, requests.cond, requests.reg dr⟩
  | store stores requests => exact (noOther (.inl stores)).elim
  | jump transfers => exact (noOther (.inr (.inl transfers))).elim
  | call calls => exact (noOther (.inr (.inl (writesPc_of_isCall calls)))).elim
  | illegal raises legal => exact (noOther (.inr (.inr (.inr raises)))).elim
  | served trap requests => exact (noOther (.inr (.inr (.inl trap)))).elim
  | input takes requests => exact (noOther (.inr (.inr (.inl (isTrap_of_takesInput takes))))).elim
  | halt halts requests => exact (noOther (.inr (.inr (.inl (isTrap_of_isHalt halts))))).elim
  | unknown raises trap legal => exact (noOther (.inr (.inr (.inl trap)))).elim

/-- Settles O50: without a DR field no flag is written; with one, DR is written together with its flag. -/
theorem flagsFollowDestination : Obligations.FlagsFollowDestination := by
  intro i s t h
  refine ⟨fun noDest => ?leaves, fun dr names => exec_dest_cases h names⟩
  case leaves =>
    rcases exec_cond_cases h with same | ⟨dr, names, -⟩
    · exact same
    · rw [noDest] at names
      cases names

/-! ## The running flag -/

theorem noRead_of_isHalt {i : Instr} (halts : isHalt i) : ¬ readsMemory i ∧ ¬ readsConsole i := by
  rcases halts with rfl | rfl
  · exact ⟨id, id⟩
  · exact ⟨not_or.mpr ⟨by decide, by decide⟩, not_or.mpr ⟨by decide, by decide⟩⟩

/-- Only HALT clears `run`; it leaves the fault cell, and R7 and `pc` are the address after it. -/
theorem exec_run_cases {i : Instr} {s t : State} (h : exec i s = .next t) :
    t.run = s.run ∨ (isHalt i ∧ t.fault = s.fault ∧ t.reg 7 = s.pc ∧ t.pc = s.pc) := by
  cases exec_effect h with
  | dest names requests => exact .inl requests.run
  | store stores requests => exact .inl requests.run
  | readRaised reads requests raised => exact .inl requests.run
  | jump transfers => exact .inl rfl
  | call calls => exact .inl rfl
  | illegal raises legal => exact .inl rfl
  | served trap requests => exact .inl requests.run
  | input takes requests => exact .inl requests.run
  | halt halts requests =>
    obtain ⟨noRead, noInput⟩ := noRead_of_isHalt halts
    exact .inr ⟨halts, requests.cause noRead noInput, (requests.reg 7).trans (linkR7_reg_seven s), requests.pc⟩
  | unknown raises trap legal => exact .inl rfl

/-! ## The fault cell -/

theorem Requests.fault_cases {i : Instr} {s t : State} (requests : Requests i s t) :
    t.fault = s.fault ∨ (t.fault = some .consoleInputEnd ∧ (readsMemory i ∨ readsConsole i)) := by
  by_cases reads : readsMemory i ∨ readsConsole i
  · exact requests.fault.imp_right fun raised => ⟨raised, reads⟩
  · obtain ⟨noRead, noInput⟩ := not_or.mp reads
    exact .inl (requests.cause noRead noInput)

/-- The fault cell is as before, or holds the end of the input that a read met, or the cause of an instruction that
always raises. -/
theorem exec_fault_cases {i : Instr} {s t : State} (h : exec i s = .next t) :
    t.fault = s.fault ∨ (t.fault = some .consoleInputEnd ∧ (readsMemory i ∨ readsConsole i)) ∨
      (alwaysRaises i ∧ ∃ c, t.fault = some c ∧ CauseLegal c) := by
  cases exec_effect h with
  | dest names requests => exact requests.fault_cases.imp_right .inl
  | store stores requests => exact requests.fault_cases.imp_right .inl
  | readRaised reads requests raised => exact requests.fault_cases.imp_right .inl
  | jump transfers => exact .inl rfl
  | call calls => exact .inl rfl
  | illegal raises legal => exact .inr (.inr ⟨raises, _, rfl, legal⟩)
  | served trap requests => exact requests.fault_cases.imp_right .inl
  | input takes requests => exact requests.fault_cases.imp_right .inl
  | halt halts requests => exact requests.fault_cases.imp_right .inl
  | unknown raises trap legal => exact .inr (.inr ⟨raises, _, rfl, legal⟩)

/-! ## TRAP with a vector that has no service (R168) -/

theorem exec_trap_unknown {v : BitVec 8} (outside : v.toNat < 0x20 ∨ 0x25 < v.toNat) (s : State) :
    exec (.trap v) s = .next (raise (.unknownTrapVector v) (linkR7 s)) := by
  obtain ⟨notGetc, notOut, notPuts, notIn, notPutsp, notHalt⟩ :=
    isServiceVector_eq_false_iff.mp (isServiceVector_eq_false_iff_outside.mpr outside)
  show execTrap v s = _
  rw [execTrap, service, if_neg notGetc, if_neg notOut, if_neg notPuts, if_neg notIn, if_neg notPutsp, if_neg notHalt,
    outcome_raised]

theorem exec_of_alwaysRaises {i : Instr} {s t : State} (raises : alwaysRaises i) (h : exec i s = .next t) :
    ∃ c, t.fault = some c ∧ c ≠ .consoleInputEnd := by
  cases i with
  | rti low =>
    rw [exec_rti] at h
    cases h
    exact ⟨_, rfl, Cause.noConfusion⟩
  | res low =>
    rw [exec_res] at h
    cases h
    exact ⟨_, rfl, Cause.noConfusion⟩
  | trap v =>
    rw [exec_trap_unknown raises] at h
    cases h
    exact ⟨_, rfl, Cause.noConfusion⟩
  | _ => exact raises.elim

/-- Settles O55: the three raising rows by the cause each records; in the others only a read can raise. -/
theorem onlyRaiseWritesFault : Obligations.OnlyRaiseWritesFault := by
  intro i s t h
  refine ⟨fun raises => ?raised, fun ordinary => ?other⟩
  case raised =>
    obtain ⟨c, cause, notEnd⟩ := exec_of_alwaysRaises raises h
    rw [cause]
    exact ⟨Option.some_ne_none c, fun same => notEnd (Option.some.inj same)⟩
  case other =>
    rcases exec_fault_cases h with same | ended | ⟨raises, -⟩
    · exact .inl same
    · exact .inr ended
    · exact absurd raises ordinary

/-! ## The console -/

theorem exec_console {i : Instr} {s t : State} (h : exec i s = .next t) :
    ConsoleLater s.console t.console ∧ s.out <+: t.out := by
  obtain ⟨s0, s1, ⟨-, console0, out0⟩, requests, -, console, out⟩ := exec_requests h
  rw [← console0, ← out0, console, out]
  exact ⟨requests.console, requests.out⟩

theorem exec_out_of_not_writesConsole {i : Instr} {s t : State} (h : exec i s = .next t) (silent : ¬ writesConsole i) :
    t.out = s.out := by
  obtain ⟨s0, s1, ⟨-, -, out0⟩, requests, -, -, out⟩ := exec_requests h
  rw [← out0, out, requests.display silent]

end Sys2Proof.Proofs
end

section
/-! The whole-machine rules of one step: the fetch, and then the instruction (`10_state.md` section 8,
`60_exceptions.md` R196, `70_reset_and_hazards.md` R228). -/

namespace Sys2Proof.Proofs
open Sys2Proof.Machine Sys2Proof.Safety Sys2Proof.Laws

/-! ## The invariant (R26, R39) -/

theorem signFlag_oneFlag (v : Word) : OneFlag (signFlag v) := by
  unfold signFlag
  split_ifs
  · exact .inr (.inr rfl)
  · exact .inr (.inl rfl)
  · exact .inl rfl

/-- Settles O5: reset lists no cell, sets no flag and records no cause. -/
theorem resetMeetsInvariant : Obligations.ResetMeetsInvariant :=
  ⟨reset_wf, .inl rfl, (by intro c recorded; cases recorded), fun _ => rfl⟩

/-- A gateway read keeps the invariant; a read that completes leaves the fault cell. -/
theorem memRead_machineInv {a : Word} {s t : State} (inv : MachineInv s) (running : s.run = true)
    (h : Leaves (memRead a s) t) : MachineInv t := by
  obtain ⟨wf, cond, cause, -⟩ := inv
  have keeps := memRead_keeps h
  refine ⟨keeps.wf wf, keeps.cond ▸ cond, fun c recorded => ?legal, fun stopped => ?notBoth⟩
  case legal =>
    rcases keeps.fault with same | ended
    · exact cause c (same ▸ recorded)
    · cases ended.symm.trans recorded
      trivial
  case notBoth =>
    rw [keeps.run, running] at stopped
    cases stopped

/-- An instruction that starts running and unfaulted keeps the invariant. -/
theorem exec_machineInv {i : Instr} {s t : State} (inv : MachineInv s) (live : Live s) (h : exec i s = .next t) :
    MachineInv t := by
  obtain ⟨wf, cond, -, -⟩ := inv
  obtain ⟨running, noFault⟩ := live
  refine ⟨exec_mem_wf h wf, ?cond, fun c recorded => ?legal, fun stopped => ?notBoth⟩
  case cond =>
    rcases exec_cond_cases h with same | ⟨dr, -, flag⟩
    · exact same ▸ cond
    · rw [flag]
      exact .inr (signFlag_oneFlag _)
  case legal =>
    rcases exec_fault_cases h with same | ⟨ended, -⟩ | ⟨-, c', raised, legal⟩
    · rw [same, noFault] at recorded
      cases recorded
    · cases ended.symm.trans recorded
      trivial
    · cases raised.symm.trans recorded
      exact legal
  case notBoth =>
    rcases exec_run_cases h with same | ⟨-, same, -⟩
    · rw [same, running] at stopped
      cases stopped
    · exact same.trans noFault

/-- Settles O6: the fetch keeps the invariant and then the instruction does. -/
theorem stepKeepsInvariant : Obligations.StepKeepsInvariant := by
  intro s t inv h
  obtain ⟨noFault, running, ⟨ir, s1, read, execution⟩ | read⟩ := step_cases h
  · have fetched : MachineInv s1 := memRead_machineInv inv running (.inl ⟨ir, read⟩)
    have live : Live s1 :=
      ⟨(memRead_keeps (.inl ⟨ir, read⟩)).run.trans running, (memRead_done_fault read).trans noFault⟩
    exact exec_machineInv (s := s1.setPc (s1.pc + 1)) fetched live execution
  · exact memRead_machineInv inv running (.inr read)

/-- Settles O7: reads leave `cond`, and what an instruction writes there is one flag. -/
theorem oneFlagIsKept : Obligations.OneFlagIsKept := by
  intro s t one h
  obtain ⟨-, -, ⟨ir, s1, read, execution⟩ | read⟩ := step_cases h
  · have fetched : s1.cond = s.cond := (memRead_keeps (.inl ⟨ir, read⟩)).cond
    rcases exec_cond_cases execution with same | ⟨dr, -, flag⟩
    · rw [same, setPc_cond, fetched]
      exact one
    · rw [flag]
      exact signFlag_oneFlag _
  · rw [(memRead_keeps (.inr read)).cond]
    exact one

/-! ## The running flag (R30, R201) -/

/-- Of the words the decoder reads, HALT's are the TRAP words with vector 0x25. -/
theorem match_of_decode_isHalt {w : Word} (h : isHalt (decode w)) : w &&& 0xF0FF = 0xF025 := by
  obtain ⟨wf, row, -⟩ := encodeOfDecode w
  rcases h with halt | trap
  · rw [halt] at row
    exact row
  · rw [trap] at wf
    cases wf

/-- Settles O54: only HALT clears `run`, and no word that a fetch from KBSR answers is one. -/
theorem onlyHaltClearsRun : Obligations.OnlyHaltClearsRun := by
  intro s t h stopped
  obtain ⟨-, running, ⟨ir, s1, read, execution⟩ | read⟩ := step_cases h
  · have keeps := memRead_keeps (.inl ⟨ir, read⟩)
    rcases exec_run_cases execution with same | ⟨halts, -, link, pc⟩
    · rw [same, setPc_run, keeps.run, running] at stopped
      cases stopped
    · rw [setPc_pc, keeps.pc] at link pc
      rcases memRead_done_cases read with ⟨notKbsr, word, -⟩ | ⟨-, word, -⟩ | ⟨-, word, -⟩
      · exact ⟨notKbsr, word ▸ match_of_decode_isHalt halts, link, pc⟩
      · exact absurd (match_of_decode_isHalt halts) (by rw [word]; decide)
      · exact absurd (match_of_decode_isHalt halts) (by rw [word]; decide)
  · rw [(memRead_keeps (.inr read)).run, running] at stopped
    cases stopped

/-! ## The console (R37, R62) -/

/-- Settles O56: the fetch and then the instruction take bytes and poll answers in order and only append. -/
theorem consoleInOrder : Obligations.ConsoleInOrder := by
  refine ⟨fun s t h => ?step, fun i s t h silent => exec_out_of_not_writesConsole h silent⟩
  case step =>
    obtain ⟨-, -, ⟨ir, s1, read, execution⟩ | read⟩ := step_cases h
    · have keeps := memRead_keeps (.inl ⟨ir, read⟩)
      obtain ⟨console, out⟩ := exec_console execution
      exact ⟨keeps.console.trans console, keeps.out.trans out⟩
    · have keeps := memRead_keeps (.inr read)
      exact ⟨keeps.console, keeps.out⟩

end Sys2Proof.Proofs
end

section
/-! SUPPORT. The string walks of PUTS and PUTSP as one walk (`43_trap_and_illegal.md` R164, R166): they differ in the
bytes a word gives and in the words that end the string. -/

namespace Sys2Proof.Proofs
open Sys2Proof.Machine Sys2Proof.Safety Sys2Proof.Laws

/-- How a string service reads one word: the bytes it writes for it, and whether the string ends there. -/
structure StringFormat where
  bytes : Word → List Byte
  last : Word → Bool

/-- R164. -/
def putsFormat : StringFormat :=
  { bytes := fun w => if w = 0 then [] else [lowByte w]
    last := fun w => w == 0 }

/-- R166: a zero word too has a zero high byte. -/
def putspFormat : StringFormat :=
  { bytes := fun w => if w = 0 then [] else if highByte w = 0 then [lowByte w] else [lowByte w, highByte w]
    last := fun w => highByte w == 0 }

namespace StringFormat

/-- The model's walk for at most `fuel` words. -/
def walk (f : StringFormat) : (fuel : Nat) → (a : Word) → State → Eff Unit
  | 0, _, _ => .stuck .endlessString
  | fuel + 1, a, s =>
    (memRead a s).andThen fun w s =>
      if f.last w then .done () (consoleWriteAll (f.bytes w) s)
      else walk f fuel (a + 1) (consoleWriteAll (f.bytes w) s)

/-- The rule's loop, without a bound. -/
inductive Loop (f : StringFormat) : Word → State → State → Prop where
  | last {a w : Word} {s s' : State} (read : memRead a s = .done w s') (ends : f.last w = true) :
      Loop f a s (consoleWriteAll (f.bytes w) s')
  | more {a w : Word} {s s' t : State} (read : memRead a s = .done w s') (goesOn : f.last w = false)
      (rest : Loop f (a + 1) (consoleWriteAll (f.bytes w) s') t) : Loop f a s t
  | raised {a : Word} {s s' : State} (read : memRead a s = .raised s') : Loop f a s s'

/-- `n` words have been read from `a` on and the string goes on. -/
inductive Run (f : StringFormat) : Nat → Word → State → State → Prop where
  | none {a : Word} {s : State} : Run f 0 a s s
  | word {n : Nat} {a w : Word} {s s' t : State} (read : memRead a s = .done w s') (goesOn : f.last w = false)
      (rest : Run f n (a + 1) (consoleWriteAll (f.bytes w) s') t) : Run f (n + 1) a s t

end StringFormat

/-! ## The two formats -/

theorem puts_last_iff {w : Word} : putsFormat.last w = true ↔ w = 0 := beq_iff_eq

theorem puts_goesOn_iff {w : Word} : putsFormat.last w = false ↔ w ≠ 0 := beq_eq_false_iff_ne

theorem puts_bytes {w : Word} (nonzero : w ≠ 0) : putsFormat.bytes w = [loByte w] := by
  rw [loByte_eq_lowByte]
  exact if_neg nonzero

theorem putsp_last_iff {w : Word} : putspFormat.last w = true ↔ hiByte w = 0 := by
  rw [hiByte_eq_highByte]
  exact beq_iff_eq

theorem putsp_goesOn_iff {w : Word} : putspFormat.last w = false ↔ hiByte w ≠ 0 := by
  rw [hiByte_eq_highByte]
  exact beq_eq_false_iff_ne

theorem ne_zero_of_hiByte {w : Word} (long : hiByte w ≠ 0) : w ≠ 0 := by
  rintro rfl
  exact long rfl

theorem putsp_bytes_last {w : Word} (nonzero : w ≠ 0) (short : hiByte w = 0) : putspFormat.bytes w = [loByte w] := by
  rw [hiByte_eq_highByte] at short
  rw [loByte_eq_lowByte]
  exact (if_neg nonzero).trans (if_pos short)

theorem putsp_bytes_long {w : Word} (long : hiByte w ≠ 0) : putspFormat.bytes w = [loByte w, hiByte w] := by
  have nonzero := ne_zero_of_hiByte long
  rw [hiByte_eq_highByte] at long
  rw [loByte_eq_lowByte, hiByte_eq_highByte]
  exact (if_neg nonzero).trans (if_neg long)

/-! ## The two services are walks -/

theorem putsWalk_eq_walk (fuel : Nat) : ∀ (a : Word) (s : State), putsWalk fuel a s = putsFormat.walk fuel a s := by
  induction fuel with
  | zero => exact fun _ _ => rfl
  | succ fuel ih =>
    intro a s
    rw [putsWalk, StringFormat.walk]
    congr 1
    funext w s'
    by_cases zero : w = 0
    · rw [if_pos zero, if_pos (puts_last_iff.mpr zero), zero]
      rfl
    · rw [if_neg zero, if_neg (mt puts_last_iff.mp zero), ih, puts_bytes zero, ← loByte_eq_lowByte]
      rfl

theorem putspWalk_eq_walk (fuel : Nat) : ∀ (a : Word) (s : State), putspWalk fuel a s = putspFormat.walk fuel a s := by
  induction fuel with
  | zero => exact fun _ _ => rfl
  | succ fuel ih =>
    intro a s
    rw [putspWalk, StringFormat.walk]
    congr 1
    funext w s'
    rw [← hiByte_eq_highByte, ← loByte_eq_lowByte]
    by_cases long : hiByte w = 0
    · rw [if_pos long, if_pos (putsp_last_iff.mpr long)]
      by_cases zero : w = 0
      · rw [if_pos zero, zero]
        rfl
      · rw [if_neg zero, putsp_bytes_last zero long]
        rfl
    · rw [if_neg (ne_zero_of_hiByte long), if_neg long, if_neg (mt putsp_last_iff.mp long), ih, putsp_bytes_long long]
      rfl

theorem exec_puts_eq_walk (s : State) :
    exec .puts s = (putsFormat.walk (walkFuel (linkR7 s)) (s.reg 0) (linkR7 s)).outcome := by
  rw [← putsWalk_eq_walk, ← linkR7_reg_zero]
  rfl

theorem exec_putsp_eq_walk (s : State) :
    exec .putsp s = (putspFormat.walk (walkFuel (linkR7 s)) (s.reg 0) (linkR7 s)).outcome := by
  rw [← putspWalk_eq_walk, ← linkR7_reg_zero]
  rfl

/-! ## The two rules' loops are loops -/

theorem putsLoop_iff_loop {a : Word} {s t : State} : PutsLoop a s t ↔ putsFormat.Loop a s t := by
  constructor
  · intro h
    induction h with
    | terminator read => exact .last read rfl
    | char read nonzero more ih => exact .more read (puts_goesOn_iff.mpr nonzero) (by rwa [puts_bytes nonzero])
    | raised read => exact .raised read
  · intro h
    induction h with
    | last read ends =>
      cases puts_last_iff.mp ends
      exact .terminator read
    | more read goesOn rest ih =>
      have nonzero := puts_goesOn_iff.mp goesOn
      rw [puts_bytes nonzero] at ih
      exact .char read nonzero ih
    | raised read => exact .raised read

theorem putspLoop_iff_loop {a : Word} {s t : State} : PutspLoop a s t ↔ putspFormat.Loop a s t := by
  constructor
  · intro h
    induction h with
    | terminator read => exact .last read rfl
    | last read nonzero short =>
      have ended := StringFormat.Loop.last read (putsp_last_iff.mpr short)
      rwa [putsp_bytes_last nonzero short] at ended
    | chars read long more ih => exact .more read (putsp_goesOn_iff.mpr long) (by rwa [putsp_bytes_long long])
    | raised read => exact .raised read
  · intro h
    induction h with
    | @last a w s s' read ends =>
      have short := putsp_last_iff.mp ends
      by_cases zero : w = 0
      · subst zero
        exact .terminator read
      · rw [putsp_bytes_last zero short]
        exact .last read zero short
    | more read goesOn rest ih =>
      have long := putsp_goesOn_iff.mp goesOn
      rw [putsp_bytes_long long] at ih
      exact .chars read long ih
    | raised read => exact .raised read

/-! ## Bytes written, and the distance between two addresses -/

theorem consoleWriteAll_mem (bs : List Byte) (s : State) : (consoleWriteAll bs s).mem = s.mem := by
  rw [consoleWriteAll_eq]

theorem consoleWriteAll_console (bs : List Byte) (s : State) : (consoleWriteAll bs s).console = s.console := by
  rw [consoleWriteAll_eq]

theorem consoleWriteAll_append (bs bs' : List Byte) (s : State) :
    consoleWriteAll bs' (consoleWriteAll bs s) = consoleWriteAll (bs ++ bs') s :=
  List.foldl_append.symm

theorem add_distance (a b : Word) : a + BitVec.ofNat 16 (b - a).toNat = b := by
  rw [BitVec.ofNat_toNat, BitVec.setWidth_eq, BitVec.add_comm, BitVec.sub_add_cancel]

theorem ne_of_lt_distance {a b : Word} {i : Nat} (h : i < (b - a).toNat) : a + BitVec.ofNat 16 i ≠ b := by
  bv_omega

namespace StringFormat

/-! ## A walk, the loop it cuts short, and the run it has made by then -/

theorem Loop.unique {f : StringFormat} {a : Word} {s t u : State} (h : f.Loop a s t) (h' : f.Loop a s u) : t = u := by
  induction h with
  | last read ends =>
    cases h' with
    | last read' ends' => cases read.symm.trans read'; rfl
    | more read' goesOn' rest' => cases read.symm.trans read'; rw [ends] at goesOn'; cases goesOn'
    | raised read' => cases read.symm.trans read'
  | more read goesOn rest ih =>
    cases h' with
    | last read' ends' => cases read.symm.trans read'; rw [goesOn] at ends'; cases ends'
    | more read' goesOn' rest' => cases read.symm.trans read'; exact ih rest'
    | raised read' => cases read.symm.trans read'
  | raised read =>
    cases h' with
    | last read' ends' => cases read.symm.trans read'
    | more read' goesOn' rest' => cases read.symm.trans read'
    | raised read' => cases read.symm.trans read'; rfl

/-- A walk ends as the loop does, or has read all its words and the string goes on. -/
theorem walk_cases (f : StringFormat) (fuel : Nat) : ∀ (a : Word) (s : State),
    (∃ t, (f.walk fuel a s).outcome = .next t ∧ f.Loop a s t) ∨
      ((f.walk fuel a s).outcome = .fault .endlessString ∧ ∃ t, f.Run fuel a s t) := by
  induction fuel with
  | zero => exact fun a s => .inr ⟨rfl, s, .none⟩
  | succ fuel ih =>
    intro a s
    rw [walk]
    cases read : memRead a s with
    | done w s' =>
      rw [andThen_done]
      cases ends : f.last w with
      | true => exact .inl ⟨_, rfl, .last read ends⟩
      | false =>
        rw [if_neg Bool.false_ne_true]
        rcases ih (a + 1) (consoleWriteAll (f.bytes w) s') with ⟨t, outcome, rest⟩ | ⟨outcome, t, rest⟩
        · exact .inl ⟨t, outcome, .more read ends rest⟩
        · exact .inr ⟨outcome, t, .word read ends rest⟩
    | raised s' => exact .inl ⟨s', rfl, .raised read⟩
    | stuck r => exact absurd read (memRead_not_stuck a s r)

/-- A bound that no run of an ending loop reaches makes the walk the loop. -/
theorem walk_outcome_iff {f : StringFormat} {fuel : Nat} {a : Word} {s : State}
    (bound : ∀ u, f.Run fuel a s u → ∀ t, ¬ f.Loop a s t) :
    (∀ t, (f.walk fuel a s).outcome = .next t ↔ f.Loop a s t) ∧
      ((f.walk fuel a s).outcome = .fault .endlessString ↔ ∀ t, ¬ f.Loop a s t) := by
  rcases f.walk_cases fuel a s with ⟨t, outcome, loop⟩ | ⟨outcome, u, run⟩
  · rw [outcome]
    refine ⟨fun t' => ⟨?sound, fun loop' => congrArg _ (loop.unique loop')⟩, ?isNext,
      fun noLoop => absurd loop (noLoop t)⟩
    case sound => rintro ⟨⟩; exact loop
    case isNext => intro endless; cases endless
  · rw [outcome]
    have noLoop := bound u run
    refine ⟨fun t => ⟨?isFault, fun loop => absurd loop (noLoop t)⟩, fun _ => noLoop, fun _ => rfl⟩
    case isFault => intro next; cases next

/-! ## Runs -/

theorem Run.split {f : StringFormat} {n : Nat} {t : State} (m : Nat) : ∀ {a : Word} {s : State},
    f.Run (m + n) a s t → ∃ u, f.Run m a s u ∧ f.Run n (a + BitVec.ofNat 16 m) u t := by
  induction m with
  | zero =>
    intro a s run
    rw [Nat.zero_add] at run
    exact ⟨s, .none, by rwa [BitVec.add_zero]⟩
  | succ m ih =>
    intro a s run
    rw [Nat.add_right_comm] at run
    cases run with
    | word read goesOn rest =>
      obtain ⟨u, first, second⟩ := ih rest
      exact ⟨u, .word read goesOn first, by rwa [add_ofNat_succ]⟩

theorem Run.take {f : StringFormat} {m n : Nat} {a : Word} {s t : State} (run : f.Run n a s t) (le : m ≤ n) :
    ∃ u, f.Run m a s u := by
  obtain ⟨k, rfl⟩ := Nat.exists_eq_add_of_le le
  obtain ⟨u, first, -⟩ := Run.split m run
  exact ⟨u, first⟩

/-- The loop is still to go from where a run has come to. -/
theorem Run.loop {f : StringFormat} {n : Nat} {a : Word} {s u t : State} (run : f.Run n a s u) (loop : f.Loop a s t) :
    f.Loop (a + BitVec.ofNat 16 n) u t := by
  induction run with
  | none => rwa [BitVec.add_zero]
  | word read goesOn rest ih =>
    rw [add_ofNat_succ]
    cases loop with
    | last read' ends' => cases read.symm.trans read'; rw [goesOn] at ends'; cases ends'
    | more read' goesOn' rest' => cases read.symm.trans read'; exact ih rest'
    | raised read' => cases read.symm.trans read'

/-- A run that does not come to KBSR leaves memory and the keyboard, and met no last word. -/
theorem Run.plain {f : StringFormat} {n : Nat} {a : Word} {s t : State} (run : f.Run n a s t)
    (away : ∀ i < n, a + BitVec.ofNat 16 i ≠ kbsr) : t.mem = s.mem ∧ t.console = s.console ∧
      ∀ i < n, f.last (s.mem.wordAt (a + BitVec.ofNat 16 i)) = false := by
  induction run with
  | none => exact ⟨rfl, rfl, fun i hi => absurd hi (Nat.not_lt_zero i)⟩
  | @word n a w s s' t read goesOn rest ih =>
    have first : a ≠ kbsr := by simpa using away 0 (Nat.zero_lt_succ n)
    have later (i : Nat) (hi : i < n) : a + 1 + BitVec.ofNat 16 i ≠ kbsr :=
      add_ofNat_succ a i ▸ away (i + 1) (Nat.succ_lt_succ hi)
    rw [memRead_plain s first] at read
    cases read
    obtain ⟨mem, console, goOn⟩ := ih later
    rw [consoleWriteAll_mem] at mem goOn
    rw [consoleWriteAll_console] at console
    refine ⟨mem, console, fun i hi => ?_⟩
    cases i with
    | zero => simpa using goesOn
    | succ i => rw [add_ofNat_succ]; exact goOn i (Nat.lt_of_succ_lt_succ hi)

/-! ## Once round memory -/

/-- What a read of KBSR that found the key `k` in `s` left, by the time the next word is read. -/
structure KeyFound (k : Byte) (s u : State) : Prop where
  kbsrWord : u.mem.wordAt kbsr = keyReady
  kbdrWord : u.mem.wordAt kbdr = zext8 k
  passes : k ≠ 0 → u.console.passes < s.console.passes ∨ (KeysUnending u.console ∧ PollsUnending u.console)

/-- At KBSR a string that a zero word ends goes on only by a key. -/
theorem Run.at_kbsr {f : StringFormat} (stops : f.last 0 = true) {n : Nat} {s t : State}
    (run : f.Run (n + 1) kbsr s t) : ∃ k u, KeyFound k s u ∧ f.Run 1 kbsr s u ∧ f.Run n (kbsr + 1) u t := by
  cases run with
  | word read goesOn rest =>
    rcases memRead_kbsr_cases s with noKey | ⟨k, key, passes⟩ | raised
    · cases noKey.symm.trans read
      rw [stops] at goesOn
      cases goesOn
    · cases key.symm.trans read
      refine ⟨k, _, ⟨?kbsrWord, ?kbdrWord, ?passes⟩, .word read goesOn .none, rest⟩
      case kbsrWord => rw [consoleWriteAll_mem, gotKey, wordAt_setWord_ne _ _ kbsr_ne_kbdr, wordAt_setWord_self]
      case kbdrWord => rw [consoleWriteAll_mem, gotKey, wordAt_setWord_self]
      case passes =>
        rw [consoleWriteAll_console]
        exact fun nonzero => (passes nonzero).imp_right And.right
    · cases raised.symm.trans read

/-- A run of two rounds comes past KBSR by a key and then reads every other word, with a round to spare. -/
theorem Run.past_kbsr {f : StringFormat} (stops : f.last 0 = true) {n : Nat} {a : Word} {s t : State}
    (run : f.Run (n + 131072) a s t) :
    ∃ k u, KeyFound k s u ∧ (∀ c, c ≠ kbsr → f.last (u.mem.wordAt c) = false) ∧
      (∃ t', f.Run (n + 65536) (kbsr + 1) u t') ∧ ∀ t', f.Loop a s t' → f.Loop (kbsr + 1) u t' := by
  have near : (kbsr - a).toNat < 65536 := (kbsr - a).isLt
  have parts : n + 131072 = (kbsr - a).toNat + (n + (131071 - (kbsr - a).toNat) + 1) := by omega
  rw [parts] at run
  obtain ⟨s1, before, fromKbsr⟩ := run.split
  obtain ⟨-, console, -⟩ := before.plain fun i hi => ne_of_lt_distance hi
  rw [add_distance] at fromKbsr
  obtain ⟨k, u, found, reading, after⟩ := fromKbsr.at_kbsr stops
  have others : ∃ t', f.Run 65535 (kbsr + 1) u t' := after.take (by omega)
  obtain ⟨t', others⟩ := others
  have far : (kbsr - (kbsr + 1)).toNat = 65535 := rfl
  obtain ⟨-, -, goOn⟩ := others.plain fun i hi => ne_of_lt_distance (far ▸ hi)
  refine ⟨k, u, ⟨found.kbsrWord, found.kbdrWord, console ▸ found.passes⟩, fun c other => ?goesOn,
    after.take (by omega), fun t' loop => ?loop⟩
  case goesOn =>
    have inRound : (c - (kbsr + 1)).toNat < 65535 := by
      have : c.toNat ≠ kbsr.toNat := fun same => other (BitVec.eq_of_toNat_eq same)
      bv_omega
    have word := goOn _ inRound
    rwa [add_distance] at word
  case loop =>
    have atKbsr := before.loop loop
    rw [add_distance] at atKbsr
    exact reading.loop atKbsr

end StringFormat

end Sys2Proof.Proofs
end

section
/-! PUTS and PUTSP (`43_trap_and_illegal.md` R164, R166): a string that KBSR is no part of, and every string against
the rule's unbounded loop. -/

namespace Sys2Proof.Proofs
open Sys2Proof.Machine Sys2Proof.Safety Sys2Proof.Laws

/-! ## A string that KBSR is no part of -/

/-- Such a string is shorter than memory. -/
theorem StringAt.length_lt {s : State} {a : Word} {ws : List Word} (string : StringAt s a ws) : ws.length < 65536 := by
  by_contra long
  have inRound : (kbsr - a).toNat < ws.length := Nat.lt_of_lt_of_le (kbsr - a).isLt (Nat.le_of_not_lt long)
  exact (string _ inRound).2 (add_distance a kbsr)

theorem StringAt.head {s : State} {a w : Word} {ws : List Word} (string : StringAt s a (w :: ws)) :
    memRead a s = .done w s := by
  obtain ⟨word, away⟩ := string 0 (Nat.zero_lt_succ _)
  rw [BitVec.add_zero] at word away
  rw [memRead_plain s away, word]
  rfl

theorem StringAt.tail {s t : State} {a w : Word} {ws : List Word} (string : StringAt s a (w :: ws))
    (mem : t.mem = s.mem) : StringAt t (a + 1) ws := by
  intro i hi
  have word := string (i + 1) (Nat.succ_lt_succ hi)
  rwa [add_ofNat_succ, ← mem] at word

/-- The walk writes the bytes of each word up to the last one and changes nothing else. -/
theorem StringFormat.walk_string (f : StringFormat) {last : Word} (ends : f.last last = true) (ws : List Word) :
    ∀ {fuel : Nat} {a : Word} {s : State}, StringAt s a (ws ++ [last]) → (∀ w ∈ ws, f.last w = false) →
      ws.length < fuel →
      f.walk fuel a s = .done () (consoleWriteAll (ws.flatMap f.bytes ++ f.bytes last) s) := by
  induction ws with
  | nil =>
    intro fuel a s string _ enough
    obtain ⟨fuel, rfl⟩ := Nat.exists_eq_succ_of_ne_zero (Nat.ne_of_gt enough)
    rw [walk, StringAt.head string, andThen_done, if_pos ends]
    rfl
  | cons w ws ih =>
    intro fuel a s string goOn enough
    obtain ⟨fuel, rfl⟩ := Nat.exists_eq_succ_of_ne_zero (Nat.ne_of_gt (Nat.zero_lt_of_lt enough))
    have rest := ih (fuel := fuel) (StringAt.tail string (consoleWriteAll_mem (f.bytes w) s))
      (fun v hv => goOn v (List.mem_cons_of_mem w hv)) (Nat.lt_of_succ_lt_succ enough)
    rw [walk, StringAt.head string, andThen_done, goOn w List.mem_cons_self, if_neg Bool.false_ne_true, rest,
      consoleWriteAll_append, List.flatMap_cons, List.append_assoc]

theorem two_rounds_le_walkFuel (s : State) : 131072 ≤ walkFuel s := by
  exact Nat.mul_le_mul_right 65536 (Nat.le_add_left 2 s.console.passes)

/-- The bound on the walk is above the length of any such string. -/
theorem StringFormat.walk_string_outcome (f : StringFormat) {s : State} {ws : List Word} {last : Word}
    (string : StringAt s (s.reg 0) (ws ++ [last])) (goOn : ∀ w ∈ ws, f.last w = false) (ends : f.last last = true) :
    (f.walk (walkFuel (linkR7 s)) (s.reg 0) (linkR7 s)).outcome =
      .next (consoleWriteAll (ws.flatMap f.bytes ++ f.bytes last) (linkR7 s)) := by
  have short := StringAt.length_lt string
  rw [List.length_append, List.length_singleton] at short
  have enough := two_rounds_le_walkFuel (linkR7 s)
  rw [f.walk_string ends ws (s := linkR7 s) string goOn (by omega), outcome_done]

theorem flatMap_puts_bytes {ws : List Word} (nonzero : ∀ w ∈ ws, w ≠ 0) :
    ws.flatMap putsFormat.bytes = ws.map loByte := by
  rw [List.map_eq_flatMap]
  exact List.flatMap_congr fun w hw => puts_bytes (nonzero w hw)

/-- Settles O33: the walk of a string that the zero word alone ends. -/
theorem putsWritesString : Obligations.PutsWritesString := by
  refine ⟨fun w row => ?decodes, fun s ws string nonzero => ?writes⟩
  case decodes =>
    rw [decode_of_trapMatch row rfl]
    rfl
  case writes =>
    have walk := putsFormat.walk_string_outcome string (fun w hw => puts_goesOn_iff.mpr (nonzero w hw)) rfl
    refine ⟨_, (exec_puts_eq_walk s).trans walk, trapKeeps_consoleWriteAll (linkR7_trapKeeps s) _, ?console, ?out⟩
    case console => rw [consoleWriteAll_console, linkR7_console]
    case out =>
      rw [consoleWriteAll_eq, linkR7_out, flatMap_puts_bytes nonzero]
      exact congrArg _ (List.append_nil _)

/-- Settles O36: the walk of a string that a zero high byte ends. -/
theorem putspWritesPackedString : Obligations.PutspWritesPackedString := by
  refine ⟨fun w row => ?decodes, fun s ws last string long short => ?writes⟩
  case decodes =>
    rw [decode_of_trapMatch row rfl]
    rfl
  case writes =>
    have walk := putspFormat.walk_string_outcome string (fun w hw => putsp_goesOn_iff.mpr (long w hw))
      (putsp_last_iff.mpr short)
    refine ⟨_, (exec_putsp_eq_walk s).trans walk, trapKeeps_consoleWriteAll (linkR7_trapKeeps s) _, ?console, ?out⟩
    case console => rw [consoleWriteAll_console, linkR7_console]
    case out =>
      have bytes : ws.flatMap putspFormat.bytes = ws.flatMap fun w => [loByte w, hiByte w] :=
        List.flatMap_congr fun w hw => putsp_bytes_long (long w hw)
      have lastBytes : putspFormat.bytes last = if last = 0x0000 then [] else [loByte last] := by
        split_ifs with zero
        · rw [zero]
          rfl
        · exact putsp_bytes_last zero short
      rw [consoleWriteAll_eq, linkR7_out, bytes, lastBytes, List.append_assoc]

/-! ## PUTS against the loop -/

/-- Where no word is zero and non-zero keys never run out it stays so, whatever is read. -/
theorem memRead_unending {s : State} (keys : KeysUnending s.console) (polls : PollsUnending s.console)
    (noZero : ∀ c, s.mem.wordAt c ≠ 0) (a : Word) : ∃ w s', memRead a s = .done w s' ∧ w ≠ 0 ∧
      KeysUnending s'.console ∧ PollsUnending s'.console ∧ ∀ c, s'.mem.wordAt c ≠ 0 := by
  by_cases atKbsr : a = kbsr
  · subst atKbsr
    obtain ⟨k, nonzero, key, keys', polls'⟩ := memRead_kbsr_unending keys polls
    refine ⟨keyReady, _, key, by decide, keys', polls', fun c => ?_⟩
    rw [gotKey, wordAt_setWord, wordAt_setWord]
    split_ifs
    · exact fun zero => nonzero (by rw [← lowByte_zext8 k, zero]; rfl)
    · decide
    · exact noZero c
  · exact ⟨_, s, memRead_plain s atKbsr, noZero a, keys, polls, noZero⟩

/-- There the loop of PUTS has no end. -/
theorem exists_zero_of_puts_loop {a : Word} {s t : State} (loop : putsFormat.Loop a s t) :
    KeysUnending s.console → PollsUnending s.console → ∃ c, s.mem.wordAt c = 0 := by
  induction loop with
  | @last a w s s' read ends =>
    intro keys polls
    by_contra noZero
    obtain ⟨w', s'', read', nonzero, -⟩ := memRead_unending keys polls (not_exists.mp noZero) a
    cases read.symm.trans read'
    exact nonzero (puts_last_iff.mp ends)
  | @more a w s s' t read goesOn rest ih =>
    intro keys polls
    by_contra noZero
    obtain ⟨w', s'', read', -, keys', polls', noZero'⟩ := memRead_unending keys polls (not_exists.mp noZero) a
    cases read.symm.trans read'
    rw [consoleWriteAll_mem, consoleWriteAll_console] at ih
    obtain ⟨c, zero⟩ := ih keys' polls'
    exact noZero' c zero
  | @raised a s s' read =>
    intro keys polls
    by_contra noZero
    obtain ⟨w', s'', read', -⟩ := memRead_unending keys polls (not_exists.mp noZero) a
    cases read.symm.trans read'

/-- Once past KBSR by a key the words read are not zero, KBDR's among them. -/
theorem StringFormat.KeyFound.noZero {k : Byte} {s u : State} (found : KeyFound k s u)
    (goesOn : ∀ c, c ≠ kbsr → putsFormat.last (u.mem.wordAt c) = false) (c : Word) : u.mem.wordAt c ≠ 0 := by
  by_cases atKbsr : c = kbsr
  · rw [atKbsr, found.kbsrWord]
    decide
  · exact puts_goesOn_iff.mp (goesOn c atKbsr)

/-- A run of PUTS as long as the walk's bound is of a loop without end: each round uses up a pass, until there is no
bound on them and no word is zero. -/
theorem puts_loop_endless_of_run {n : Nat} : ∀ {a : Word} {s u : State}, s.console.passes ≤ n →
    putsFormat.Run (n * 65536 + 131072) a s u → ∀ t, ¬ putsFormat.Loop a s t := by
  induction n using Nat.strongRecOn with
  | ind n ih =>
    intro a s u passes run t loop
    obtain ⟨k, u, found, goesOn, ⟨t', after⟩, more⟩ := run.past_kbsr rfl
    have noZero := found.noZero goesOn
    have nonzero : k ≠ 0 := by
      rintro rfl
      exact noZero kbdr found.kbdrWord
    rcases found.passes nonzero with fewer | ⟨keys, polls⟩
    · have bound : u.console.passes * 65536 + 131072 ≤ n * 65536 + 65536 := by omega
      obtain ⟨t'', shorter⟩ := after.take bound
      exact ih _ (Nat.lt_of_lt_of_le fewer passes) le_rfl shorter t (more t loop)
    · obtain ⟨c, zero⟩ := exists_zero_of_puts_loop (more t loop) keys polls
      exact noZero c zero

theorem walkFuel_eq (s : State) : walkFuel s = s.console.passes * 65536 + 131072 :=
  Nat.add_mul s.console.passes 2 65536

/-- Settles O34: the walk is the loop as far as it goes, and its bound is met by a loop without end alone. -/
theorem putsIsTheLoop : Obligations.PutsIsTheLoop := by
  refine ⟨fun w row => ?decodes, fun s =>
    ⟨linkR7 s, linkR7_trapKeeps s, linkR7_console s, linkR7_out s, ?loop⟩⟩
  case decodes =>
    rw [decode_of_trapMatch row rfl]
    rfl
  case loop =>
    rw [exec_puts_eq_walk, walkFuel_eq]
    simp only [putsLoop_iff_loop]
    exact StringFormat.walk_outcome_iff fun u run => puts_loop_endless_of_run le_rfl run

/-! ## PUTSP against the loop -/

/-- No run of PUTSP is that long: the key that leads past KBSR has left a zero high byte in KBDR. -/
theorem no_long_putsp_run {n : Nat} {a : Word} {s u : State} : ¬ putspFormat.Run (n + 131072) a s u := by
  intro run
  obtain ⟨k, u, found, goesOn, -, -⟩ := run.past_kbsr rfl
  have long := putsp_goesOn_iff.mp (goesOn kbdr kbsr_ne_kbdr.symm)
  rw [found.kbdrWord, hiByte_eq_highByte, highByte_zext8] at long
  exact long rfl

/-- Settles O37: the walk is the loop as far as it goes, and it never comes to its bound. -/
theorem putspIsTheLoop : Obligations.PutspIsTheLoop := by
  refine ⟨fun w row => ?decodes, fun s =>
    ⟨linkR7 s, linkR7_trapKeeps s, linkR7_console s, linkR7_out s, ?loop⟩⟩
  case decodes =>
    rw [decode_of_trapMatch row rfl]
    rfl
  case loop =>
    rw [exec_putsp_eq_walk, walkFuel_eq]
    simp only [putspLoop_iff_loop]
    exact StringFormat.walk_outcome_iff fun u run => absurd run no_long_putsp_run

/-- Settles O60: a walk that did not end would have made a run that PUTSP never makes. -/
theorem putspAlwaysEnds : Obligations.PutspAlwaysEnds := by
  intro s
  rw [exec_putsp_eq_walk, walkFuel_eq]
  rcases putspFormat.walk_cases _ (s.reg 0) (linkR7 s) with ⟨t, outcome, -⟩ | ⟨-, u, run⟩
  · exact ⟨t, outcome⟩
  · exact absurd run no_long_putsp_run

end Sys2Proof.Proofs
end

section
/-! Reset and images (`70_reset_and_hazards.md` R221 to R224). -/

namespace Sys2Proof.Proofs
open Sys2Proof.Machine Sys2Proof.Safety Sys2Proof.Laws

/-- What boot answers is reset but for the memory the images left and the console. -/
theorem boot_eq_some {images : List (List Byte)} {con : Console} {s : State} (booted : boot images con = some s) :
    ∃ m, loadImages images [] = some m ∧ s = { State.reset with mem := m, console := con } := by
  obtain ⟨m, loaded, state⟩ := Option.map_eq_some_iff.mp booted
  exact ⟨m, loaded, state.symm⟩

/-- Settles O1: no image touches any other part of reset, and placing words keeps the canonical form. -/
theorem resetState : Obligations.ResetState := by
  refine ⟨reset_reg, rfl, rfl, rfl, rfl, rfl, wordAt_nil, fun images con s booted => ?_⟩
  obtain ⟨m, loaded, rfl⟩ := boot_eq_some booted
  exact ⟨rfl, rfl, rfl, rfl, rfl, loadImages_wf images reset_wf loaded⟩

/-- Settles O3: the words are placed from the origin on, and no address outside them is stored to. -/
theorem imagePlacement : Obligations.ImagePlacement := by
  intro m origin ws fits
  refine ⟨_, loadImage_imageBytes fits m, wordAt_placeWords_covered ws m origin (Nat.le_of_add_left_le fits), ?outside⟩
  case outside => exact fun a outside => wordAt_placeWords_ne ws m origin (ne_covered_of_outside fits outside)

theorem boot_eq_none {bytes : List Byte} (malformed : parseImage bytes = none) (con : Console) :
    boot [bytes] con = none := by
  simp [boot, loadImages, loadImage, malformed]

theorem wordsOfBytes_odd (ws : List Word) (b : Byte) :
    wordsOfBytes ((ws.flatMap fun w => [hiByte w, loByte w]) ++ [b]) = none := by
  induction ws with
  | nil => rfl
  | cons w ws ih => simpa [wordsOfBytes] using ih

/-- Settles O4: each of the three kinds is refused when the image is read. -/
theorem malformedImagesDoNotLoad : Obligations.MalformedImagesDoNotLoad := by
  refine fun con => ⟨fun origin ws long => boot_eq_none ?tooLong con, fun origin ws b => boot_eq_none ?odd con,
    fun b => boot_eq_none rfl con, boot_eq_none rfl con⟩
  case tooLong => rw [parseImage_imageBytes, if_neg (Nat.not_le_of_lt long)]
  case odd => simp [imageBytes, parseImage, wordsOfBytes_odd]

end Sys2Proof.Proofs
end

section
/-! NOT, BR before any flag, JSRR, and the words the spec writes out (`40_operate.md` R124, `42_control.md` R150, R153,
`70_reset_and_hazards.md` R234). -/

namespace Sys2Proof.Proofs
open Sys2Proof.Machine Sys2Proof.Safety Sys2Proof.Laws

/-- Settles O11: the decoder run on each of the twenty words. -/
theorem sampleWordsDecode : Obligations.SampleWordsDecode := by
  unfold Obligations.SampleWordsDecode
  decide

theorem exec_not (dr sr : Reg) (s : State) : exec (.not dr sr) s = .next (writeDest dr (~~~ s.reg sr) s) := rfl

theorem not_eq_ofNat (v : Word) : ~~~v = BitVec.ofNat 16 (65535 - v.toNat) := by
  bv_omega

/-- Settles O17: the complement of a Word is what is missing to 65,535. -/
theorem notComplement : Obligations.NotComplement := by
  refine ⟨fun w row => decode_of_opcode_not (opcode_of_match row rfl), fun dr sr s => ⟨_, exec_not dr sr s, ?writes⟩⟩
  rw [← not_eq_ofNat]
  exact writeDest_writesDest dr _ s

/-! ## BR before any flag -/

theorem maskMeets_no_flag (n z p : Bool) : maskMeets n z p 0x0000 = false := by
  revert n z p
  decide

theorem maskMeets_all_of_oneFlag {c : Word} (one : OneFlag c) : maskMeets true true true c = true := by
  rcases one with rfl | rfl | rfl <;> rfl

theorem maskMeets_empty (c : Word) : maskMeets false false false c = false := rfl

theorem exec_br_of_not_meets {n z p : Bool} {s : State} (h : maskMeets n z p s.cond = false) (off : BitVec 9) :
    exec (.br n z p off) s = .next s := by
  rw [exec_br, h, if_neg Bool.false_ne_true]

theorem exec_br_of_meets {n z p : Bool} {s : State} (h : maskMeets n z p s.cond = true) (off : BitVec 9) :
    exec (.br n z p off) s = .next (s.setPc (s.pc + signed off)) := by
  rw [exec_br, h, if_pos rfl]

/-- Settles O26: by what the mask has in common with no flag, with one flag, and with any `cond` when it is empty. -/
theorem branchBeforeAnyFlag : Obligations.BranchBeforeAnyFlag := by
  refine fun off s => ⟨fun noFlag n z p => ?untaken,
    fun _ base off' => ⟨_, _, exec_jmp base s, setPc_pc s _, exec_jsr off' s, setPc_pc _ _⟩,
    fun one => ⟨_, exec_br_of_meets (maskMeets_all_of_oneFlag one) off, setPc_jumps _ s⟩,
    exec_br_of_not_meets (maskMeets_empty s.cond) off⟩
  case untaken => exact exec_br_of_not_meets (noFlag ▸ maskMeets_no_flag n z p) off

/-! ## JSRR -/

/-- The target is read after the link has been written. -/
theorem exec_jsrr (base : Reg) (s : State) :
    exec (.jsrr base) s = .next ((linkR7 s).setPc ((linkR7 s).reg base)) := rfl

theorem linkR7_reg (s : State) (r : Reg) : (linkR7 s).reg r = if r = 7 then s.pc else s.reg r :=
  setReg_reg s 7 r s.pc

/-- Settles O29: opcode 4 with bit 11 clear; R7 is read as the link that has just been written. -/
theorem jumpToSubroutineRegister : Obligations.JumpToSubroutineRegister := by
  refine ⟨fun w row => ?decodes, fun base s => ⟨_, exec_jsrr base s, ?calls⟩⟩
  case decodes =>
    have form : w.getLsbD 11 = false := getLsbD_of_match row rfl
    rw [decode_of_opcode_jsr (opcode_of_match row rfl), form, if_neg Bool.false_ne_true]
  case calls =>
    rw [linkR7_reg]
    exact linkR7_setPc_calls _ s

end Sys2Proof.Proofs
end

section
/-! TRAP's dispatch and the vectors that have no service (`43_trap_and_illegal.md` R160, R168). -/

namespace Sys2Proof.Proofs
open Sys2Proof.Machine Sys2Proof.Safety Sys2Proof.Laws

/-- The vector as the decoder cuts it out. -/
theorem extractLsb'_vector (w : Word) : w.extractLsb' 0 8 = w.setWidth 8 :=
  (BitVec.setWidth_eq_extractLsb' (by decide)).symm

theorem exec_trap (v : BitVec 8) (s : State) : exec (.trap v) s = (service v (linkR7 s)).outcome := rfl

theorem exec_trap_getc (s : State) : exec (.trap 0x20) s = exec .getc s := by
  rw [exec_trap, service, if_pos rfl]
  rfl

theorem exec_trap_out (s : State) : exec (.trap 0x21) s = exec .out s := by
  rw [exec_trap, service, if_neg (by decide), if_pos rfl]
  rfl

theorem exec_trap_puts (s : State) : exec (.trap 0x22) s = exec .puts s := by
  rw [exec_trap, service, if_neg (by decide), if_neg (by decide), if_pos rfl]
  rfl

theorem exec_trap_in (s : State) : exec (.trap 0x23) s = exec .inp s := by
  rw [exec_trap, service, if_neg (by decide), if_neg (by decide), if_neg (by decide), if_pos rfl]
  rfl

theorem exec_trap_putsp (s : State) : exec (.trap 0x24) s = exec .putsp s := by
  rw [exec_trap, service, if_neg (by decide), if_neg (by decide), if_neg (by decide), if_neg (by decide), if_pos rfl]
  rfl

theorem exec_trap_halt (s : State) : exec (.trap 0x25) s = exec .halt s := by
  rw [exec_trap, service, if_neg (by decide), if_neg (by decide), if_neg (by decide), if_neg (by decide),
    if_neg (by decide), if_pos rfl]
  rfl

/-- The row a TRAP word is decoded to does what TRAP does with the word's vector. -/
theorem exec_decodeTrap (w : Word) (s : State) : exec (decodeTrap w) s = exec (.trap (w.setWidth 8)) s := by
  rw [← extractLsb'_vector]
  unfold decodeTrap
  dsimp only
  split_ifs with getc out puts inp putsp halt
  · rw [getc, exec_trap_getc]
  · rw [out, exec_trap_out]
  · rw [puts, exec_trap_puts]
  · rw [inp, exec_trap_in]
  · rw [putsp, exec_trap_putsp]
  · rw [halt, exec_trap_halt]
  · rfl

/-- Settles O30: both sides run the same service after R7 is written. -/
theorem trapSelectsService : Obligations.TrapSelectsService := by
  refine ⟨exec_trap_getc, exec_trap_out, exec_trap_puts, exec_trap_in, exec_trap_putsp, exec_trap_halt,
    fun w row s => ?_⟩
  rw [decode_of_opcode_trap (opcode_of_match row rfl), exec_decodeTrap]

theorem trapRaises_raise_linkR7 (c : Cause) (s : State) : TrapRaises c s (raise c (linkR7 s)) :=
  ⟨linkR7_trapFrame s, linkR7_reg_zero s, linkR7_mem s, linkR7_run s, raise_fault _ c, linkR7_console s⟩

/-- Settles O39: such a word is TRAP's own row, and the case over the vectors falls through to the raise. -/
theorem unknownVectorRaises : Obligations.UnknownVectorRaises := by
  intro w row range s
  have vector : (w.setWidth 8).toNat = w.toNat % 256 := BitVec.toNat_setWidth 8 w
  rw [← vector] at range
  refine ⟨?decodes, _, exec_trap_unknown range s, trapRaises_raise_linkR7 _ s, linkR7_out s⟩
  case decodes =>
    have ordinary := isServiceVector_eq_false_iff_outside.mpr range
    rw [← extractLsb'_vector] at ordinary ⊢
    rw [decode_of_opcode_trap (opcode_of_match row rfl), decodeTrap_ordinary ordinary]

end Sys2Proof.Proofs
end

section
/-! The console port and the gateway (`20_memory.md` R52, R53, R61, R62, R65). -/

namespace Sys2Proof.Proofs
open Sys2Proof.Machine Sys2Proof.Safety Sys2Proof.Laws

/-! ## The console read, input by input (R62) -/

theorem consoleRead_of_key {s : State} {k : Byte} {rest : List Byte} (keys : s.console.keys = k :: rest) :
    consoleRead s = .done k { s with console := { s.console with keys := rest } } := by
  simp [consoleRead, Console.afterKey, keys]

theorem consoleRead_of_endless {s : State} {b : Byte} (keys : s.console.keys = [])
    (tail : s.console.tail = .endless b) : consoleRead s = .done b s := by
  simp [consoleRead, Console.afterKey, keys, tail]

theorem consoleRead_of_stream {s : State} {c : Cursor} (keys : s.console.keys = [])
    (tail : s.console.tail = .stream c) : consoleRead s = .done c.byte
      { s with console := { s.console with tail := .stream (c.next Config.nonZeroBytes) } } := by
  simp [consoleRead, Console.afterKey, keys, tail]

theorem consoleRead_of_ended {s : State} (keys : s.console.keys = []) (tail : s.console.tail = .ended) :
    consoleRead s = .raised (raise .consoleInputEnd s) := by
  simp [consoleRead, keys, tail]

theorem consoleRead_of_silent {s : State} (keys : s.console.keys = []) (tail : s.console.tail = .silent) :
    consoleRead s = .stuck .consoleWait := by
  simp [consoleRead, keys, tail]

/-! ## The poll (R61) -/

theorem consolePoll_eq_iff {s s1 : State} {b : Bool} : consolePoll s = (b, s1) ↔
    (s.console.answer && s.console.mayAnswerTrue) = b ∧ { s with console := s.console.afterPoll } = s1 :=
  Prod.mk.injEq .. ▸ Iff.rfl

theorem consoleRead_not_stuck_of_mayAnswerTrue {s : State} (may : s.console.mayAnswerTrue = true) (r : Fault) :
    consoleRead s ≠ .stuck r := by
  rcases consoleRead_cases s with ⟨k, key, -⟩ | ⟨-, -, raised⟩ | ⟨keys, tail, -⟩
  · simp [key]
  · simp [raised]
  · simp [Console.mayAnswerTrue, Console.ready, keys, tail] at may

theorem mayAnswerTrue_afterPoll (c : Console) : c.afterPoll.mayAnswerTrue = c.mayAnswerTrue := by
  simp [Console.mayAnswerTrue, Console.ready]

theorem mayAnswerTrue_of_key {c : Console} {k : Byte} {rest : List Byte} (keys : c.keys = k :: rest) :
    c.mayAnswerTrue = true := by
  simp [Console.mayAnswerTrue, Console.ready, keys]

/-- Settles O44: a poll moves on in the answers alone, and `true` is answered only where a read does not wait. -/
theorem pollIsNonBlocking : Obligations.PollIsNonBlocking := by
  refine fun s => ⟨fun b s1 poll => ?takesNothing, fun s1 poll r => ?noWait,
    fun answer k rest later keys polls => ?listed, fun c k rest keys polls tail => ?free⟩
  case takesNothing =>
    obtain ⟨-, rfl⟩ := consolePoll_eq_iff.mp poll
    exact ⟨afterPoll_keys s.console, afterPoll_tail s.console, rfl⟩
  case noWait =>
    obtain ⟨answered, rfl⟩ := consolePoll_eq_iff.mp poll
    refine consoleRead_not_stuck_of_mayAnswerTrue ?_ r
    rw [mayAnswerTrue_afterPoll]
    exact (Bool.and_eq_true_iff.mp answered).2
  case listed =>
    refine ⟨_, consolePoll_eq_iff.mpr ⟨?_, rfl⟩, ?_⟩
    · rw [mayAnswerTrue_of_key keys, Bool.and_true, Console.answer, polls]
    · simp [Console.afterPoll, polls]
  case free =>
    refine ⟨_, consolePoll_eq_iff.mpr ⟨?_, rfl⟩, ?_⟩
    · rw [mayAnswerTrue_of_key keys, Bool.and_true, Console.answer, polls, tail]
    · simp [Console.afterPoll, polls, tail]

/-- Settles O45: readiness is then a non-empty list, and neither request moves on in any answers. -/
theorem deterministicConsole : Obligations.DeterministicConsole := by
  refine fun s polls pollTail tail => ⟨consolePoll_eq_iff.mpr ⟨?answer, ?unchanged⟩,
    fun k rest keys => consoleRead_of_key keys, fun keys => consoleRead_of_ended keys tail⟩
  case answer =>
    cases keys : s.console.keys <;>
      simp [Console.answer, Console.mayAnswerTrue, Console.ready, polls, pollTail, tail, keys]
  case unchanged => simp [Console.afterPoll, polls, pollTail]

/-! ## The gateway read at KBSR (R52) -/

theorem zext8_eq_byteWord (b : Byte) : zext8 b = byteWord b := (BitVec.ofNat_toNat 16 b).symm

theorem memRead_kbsr_of_no_key {s s1 : State} (poll : consolePoll s = (false, s1)) :
    memRead kbsr s = .done 0 (storeWord kbsr 0 s1) := by
  simp [memRead, pollKeyboard, poll]

theorem memRead_kbsr_of_key {s s1 s2 : State} {k : Byte} (poll : consolePoll s = (true, s1))
    (read : consoleRead s1 = .done k s2) :
    memRead kbsr s = .done keyReady (storeWord kbdr (zext8 k) (storeWord kbsr keyReady s2)) := by
  simp [memRead, pollKeyboard, poll, read, wordAt_setWord_ne _ _ kbsr_ne_kbdr]

theorem memRead_kbsr_of_raised {s s1 s2 : State} (poll : consolePoll s = (true, s1))
    (read : consoleRead s1 = .raised s2) : memRead kbsr s = .raised s2 := by
  simp [memRead, pollKeyboard, poll, read]

theorem kbsrWord_of_key (m : Memory) (k : Byte) :
    ((m.setWord kbsr keyReady).setWord kbdr (zext8 k)).wordAt kbsr = keyReady := by
  rw [wordAt_setWord_ne _ _ kbsr_ne_kbdr, wordAt_setWord_self]

theorem otherWord_of_key (m : Memory) (k : Byte) {a : Word} (notKbsr : a ≠ kbsr) (notKbdr : a ≠ kbdr) :
    ((m.setWord kbsr keyReady).setWord kbdr (zext8 k)).wordAt a = m.wordAt a := by
  rw [wordAt_setWord_ne _ _ notKbdr, wordAt_setWord_ne _ _ notKbsr]

theorem mem_of_poll_of_read {s s1 s2 : State} {b : Bool} (poll : consolePoll s = (b, s1))
    (read : Leaves (consoleRead s1) s2) : s2.mem = s.mem := by
  obtain ⟨-, rfl⟩ := consolePoll_eq_iff.mp poll
  exact (consoleRead_mem read :)

/-- Settles O42: by the poll's answer and then by what the read ends in. -/
theorem gatewayRead : Obligations.GatewayRead := by
  refine fun s => ⟨fun a notKbsr => memRead_plain s notKbsr, fun s1 poll => ?noKey, fun s1 s2 k poll read => ?key,
    fun s1 s2 poll read => ?raised⟩
  case noKey => exact ⟨_, memRead_kbsr_of_no_key poll, storeWord_storesWord _ _ s1⟩
  case key =>
    refine ⟨_, memRead_kbsr_of_key poll read, ?ready, ?stored, fun a notKbsr notKbdr => ?others⟩
    case ready => exact kbsrWord_of_key s2.mem k
    case stored =>
      rw [zext8_eq_byteWord]
      exact storeWord_storesWord _ _ _
    case others =>
      rw [← mem_of_poll_of_read poll (.inl ⟨k, read⟩)]
      exact otherWord_of_key s2.mem k notKbsr notKbdr
  case raised =>
    refine ⟨memRead_kbsr_of_raised poll read, mem_of_poll_of_read poll (.inr read), ?_⟩
    rw [consoleRead_raised_eq read, raise_fault]

/-- What KBSR's read answers is what KBSR then holds; where it is zero no key was taken. -/
theorem memRead_kbsr_status {s t : State} {w : Word} (read : memRead kbsr s = .done w t) :
    (w = keyReady ∨ w = 0) ∧ t.mem.wordAt kbsr = w ∧
      (w = 0 → t.mem.wordAt kbdr = s.mem.wordAt kbdr ∧ t.console.keys = s.console.keys ∧
        t.console.tail = s.console.tail) := by
  rcases memRead_done_cases read with ⟨notKbsr, -⟩ | ⟨-, rfl, rfl⟩ | ⟨-, rfl, k, rfl⟩
  · exact absurd rfl notKbsr
  · exact ⟨.inr rfl, wordAt_setWord_self s.mem kbsr 0, fun _ =>
      ⟨wordAt_setWord_ne s.mem 0 kbsr_ne_kbdr.symm, afterPoll_keys s.console, afterPoll_tail s.console⟩⟩
  · refine ⟨.inl rfl, ?_, fun zero => absurd zero (by decide)⟩
    exact kbsrWord_of_key s.mem k

/-- Settles O43: by the three ends a read of KBSR has; no other read waits or raises. -/
theorem keyboardStatusRead : Obligations.KeyboardStatusRead := by
  refine ⟨fun s t w read => memRead_kbsr_status read, fun a s => ?neverWaits⟩
  case neverWaits =>
    cases read : memRead a s with
    | done w t => exact .inl ⟨w, t, rfl⟩
    | raised t =>
      obtain ⟨atKbsr, rfl⟩ := memRead_raised_eq read
      exact .inr ⟨atKbsr, _, rfl, rfl⟩
    | stuck r => exact absurd read (memRead_not_stuck a s r)

end Sys2Proof.Proofs
end

section
/-! GETC and IN (`43_trap_and_illegal.md` R162, R165), by what their console read ends in. -/

namespace Sys2Proof.Proofs
open Sys2Proof.Machine Sys2Proof.Safety Sys2Proof.Laws

/-- A TRAP that got the byte `k`: the console is then `con` and `out` has been written. -/
def gotByte (k : Byte) (con : Console) (out : List Byte) (s : State) : State :=
  ({ linkR7 s with console := con, out := out }).setReg 0 (zext8 k)

/-- What GETC and IN then leave. -/
theorem gotByte_spec (k : Byte) (con : Console) (out : List Byte) (s : State) :
    TrapFrame s (gotByte k con out s) ∧ (gotByte k con out s).reg 0 = byteWord k ∧
      (gotByte k con out s).mem = s.mem ∧ (gotByte k con out s).run = s.run ∧
      (gotByte k con out s).fault = s.fault ∧ (gotByte k con out s).out = out ∧
      (gotByte k con out s).console = con := by
  obtain ⟨r7, others, cond, pc⟩ := linkR7_trapFrame s
  refine ⟨⟨?r7, fun r notR7 notR0 => ?others, cond, pc⟩, ?r0, rfl, rfl, rfl, rfl, rfl⟩
  case r7 => exact (setReg_reg_ne _ _ (by decide)).trans r7
  case others => exact (setReg_reg_ne _ _ notR0).trans (others r notR7 notR0)
  case r0 => exact (setReg_reg_self _ _ _).trans (zext8_eq_byteWord k)

/-! ## GETC -/

theorem exec_getc (s : State) :
    exec .getc s = ((consoleRead (linkR7 s)).andThen fun k s => .done () (s.setReg 0 (zext8 k))).outcome := rfl

theorem exec_getc_of_done {k : Byte} {con : Console} {s : State}
    (read : consoleRead (linkR7 s) = .done k { linkR7 s with console := con }) :
    exec .getc s = .next (gotByte k con s.out s) := by
  rw [exec_getc, read]
  rfl

/-- Settles O31: by the five inputs a console read can meet. -/
theorem getcReadsOneByte : Obligations.GetcReadsOneByte := by
  refine ⟨fun w row => ?decodes, fun s => ⟨fun k rest keys => ?key, fun b keys tail => ?endless,
    fun c keys tail => ?stream, fun keys tail => ?ended, fun keys tail => ?silent⟩⟩
  case decodes =>
    rw [decode_of_trapMatch row rfl]
    rfl
  case key => exact ⟨_, exec_getc_of_done (consoleRead_of_key (s := linkR7 s) keys), gotByte_spec _ _ _ _⟩
  case endless =>
    obtain ⟨frame, r0, mem, run, fault, out, console⟩ := gotByte_spec b s.console s.out s
    exact ⟨_, exec_getc_of_done (consoleRead_of_endless (s := linkR7 s) keys tail), frame, r0, mem, run, fault,
      console, out⟩
  case stream =>
    exact ⟨_, exec_getc_of_done (consoleRead_of_stream (s := linkR7 s) keys tail), gotByte_spec _ _ _ _⟩
  case ended =>
    refine ⟨raise .consoleInputEnd (linkR7 s), ?_, trapRaises_raise_linkR7 _ s, linkR7_out s⟩
    rw [exec_getc, consoleRead_of_ended (s := linkR7 s) keys tail, andThen_raised, outcome_raised]
  case silent => rw [exec_getc, consoleRead_of_silent (s := linkR7 s) keys tail, andThen_stuck, outcome_stuck]

/-! ## IN -/

/-- After TRAP's entry and the prompt. -/
def prompted (s : State) : State := { linkR7 s with out := s.out ++ prompt }

theorem exec_in (s : State) : exec .inp s = ((consoleRead (prompted s)).andThen fun k s =>
    .done () ((consoleWrite k s).setReg 0 (zext8 k))).outcome := by
  have written : consoleWriteAll prompt (linkR7 s) = prompted s := consoleWriteAll_eq prompt (linkR7 s)
  show (serviceIn (linkR7 s)).outcome = _
  rw [serviceIn, consoleFlush_eq, written]
  simp only [consoleFlush_eq]

theorem exec_in_of_done {k : Byte} {con : Console} {s : State}
    (read : consoleRead (prompted s) = .done k { prompted s with console := con }) :
    exec .inp s = .next (gotByte k con (s.out ++ prompt ++ [k]) s) := by
  have written : consoleWrite k { prompted s with console := con } =
      { linkR7 s with console := con, out := s.out ++ prompt ++ [k] } := rfl
  rw [exec_in, read, andThen_done, outcome_done, written, gotByte]

/-- Settles O35: by the five inputs a console read can meet, the prompt written before it. -/
theorem inPromptsAndEchoes : Obligations.InPromptsAndEchoes := by
  refine ⟨fun w row => ?decodes, fun s => ?_⟩
  case decodes =>
    rw [decode_of_trapMatch row rfl]
    rfl
  intro text
  have isPrompt : text = prompt := rfl
  rw [isPrompt]
  refine ⟨fun k rest keys => ?key, fun b keys tail => ?endless, fun c keys tail => ?stream,
    fun keys tail => ?ended, fun keys tail => ?silent⟩
  case key => exact ⟨_, exec_in_of_done (consoleRead_of_key (s := prompted s) keys), gotByte_spec _ _ _ _⟩
  case endless =>
    exact ⟨_, exec_in_of_done (consoleRead_of_endless (s := prompted s) keys tail), gotByte_spec _ _ _ _⟩
  case stream =>
    exact ⟨_, exec_in_of_done (consoleRead_of_stream (s := prompted s) keys tail), gotByte_spec _ _ _ _⟩
  case ended =>
    refine ⟨raise .consoleInputEnd (prompted s), ?_, trapRaises_raise_linkR7 _ s, rfl⟩
    rw [exec_in, consoleRead_of_ended (s := prompted s) keys tail, andThen_raised, outcome_raised]
  case silent => rw [exec_in, consoleRead_of_silent (s := prompted s) keys tail, andThen_stuck, outcome_stuck]

end Sys2Proof.Proofs
end

section
/-! One step and the next (`60_exceptions.md` R194, R196, `70_reset_and_hazards.md` R227, R228, R236, R238). -/

namespace Sys2Proof.Proofs
open Sys2Proof.Machine Sys2Proof.Safety Sys2Proof.Laws

/-! ## A stopped machine (R196, R227) -/

theorem step_of_faulted {s : State} {c : Cause} (recorded : s.fault = some c) : step s = .fault (.faulted c) := by
  simp only [step, recorded]

theorem step_of_halted {s : State} (noFault : s.fault = none) (stopped : s.run = false) :
    step s = .fault .halted := by
  simp only [step, noFault, stopped]

theorem live_of_step {s t : State} (h : step s = .next t) : Live s := by
  obtain ⟨noFault, running, -⟩ := step_cases h
  exact ⟨running, noFault⟩

/-- Settles O49: by the run loop's test, the fault cell before the running flag. -/
theorem stoppedMachineTakesNoStep : Obligations.StoppedMachineTakesNoStep :=
  fun _ => ⟨fun _ => step_of_faulted, step_of_halted, fun _ => live_of_step⟩

/-! ## A fetch away from KBSR (R228) -/

theorem step_of_plain_fetch {s : State} (live : Live s) (away : s.pc ≠ kbsr) :
    step s = exec (decode (s.mem.wordAt s.pc)) { s with pc := s.pc + 1 } :=
  ((fetchThroughGateway s live).1 _ s (memRead_plain s away)).2

/-- Settles O46: there the fetch is a plain read, and every word decodes to a well-formed instruction. -/
theorem stepRunsDecodedInstruction : Obligations.StepRunsDecodedInstruction := by
  refine fun s live away => ⟨?wf, step_of_plain_fetch live away⟩
  obtain ⟨wf, -, -⟩ := encodeOfDecode (s.mem.wordAt s.pc)
  exact wf

/-- Settles O59: the stored word is the one at the next `pc`, which no poll stands before. -/
theorem storedWordRunsNext : Obligations.StoredWordRunsNext := by
  intro s sr live away nextAway word
  have address : eaPc 0 { s with pc := s.pc + 1 } = s.pc + 1 := BitVec.add_zero (s.pc + 1)
  have stored : step s = .next (storeWord (s.pc + 1) (s.reg sr) { s with pc := s.pc + 1 }) := by
    rw [step_of_plain_fetch live away, word, decodeOfEncode _ rfl, exec_st, address]
    rfl
  have next := step_of_plain_fetch (s := storeWord (s.pc + 1) (s.reg sr) { s with pc := s.pc + 1 }) live nextAway
  have twoOn : s.pc + 1 + 1 = s.pc + 2 := BitVec.add_assoc s.pc 1 1
  rw [storeWord_mem, storeWord_pc, wordAt_setWord_self, twoOn] at next
  exact ⟨_, stored, rfl, next⟩

/-! ## A fetch from KBSR (R236) -/

/-- Settles O48: the fetched word is zero, an untaken branch, or 0x8000, RTI; or the read raised. -/
theorem fetchFromKeyboardStatus : Obligations.FetchFromKeyboardStatus := by
  intro s t live atKbsr h
  obtain ⟨fetched, raises⟩ := fetchThroughGateway s live
  rw [atKbsr] at fetched raises
  rcases memRead_kbsr_cases s with noKey | ⟨k, key, -⟩ | raised
  · have branch : decode 0x0000 = .br false false false 0 := by decide
    rw [(fetched _ _ noKey).2, branch, exec_br_of_not_meets (maskMeets_empty _)] at h
    cases h
    exact ⟨rfl, rfl, rfl, .inl ⟨rfl, live.2, wordAt_setWord_self s.mem kbsr 0⟩⟩
  · have rti : keyReady &&& 0xF000 = 0x8000 := by decide
    rw [(fetched _ _ key).2, exec_decode_rti rti] at h
    cases h
    exact ⟨rfl, rfl, rfl, .inr (.inl ⟨rfl, rfl, kbsrWord_of_key s.mem k⟩)⟩
  · rw [(raises _ raised).1] at h
    cases h
    exact ⟨rfl, rfl, rfl, .inr (.inr ⟨atKbsr, rfl, rfl⟩)⟩

end Sys2Proof.Proofs
end

section
/-! SUPPORT. Changes of the state that an instruction carries along: those it neither looks at nor writes over. A
request must answer the same and leave the same but for the change (`10_state.md` R37, `60_exceptions.md` R193). -/

namespace Sys2Proof.Proofs
open Sys2Proof.Machine Sys2Proof.Safety Sys2Proof.Laws

/-! ## A change carried through an operation -/

/-- What an operation ends in, with the state it leaves changed by `f`. -/
def carry {α : Type} (f : State → State) : Eff α → Eff α
  | .done v s => .done v (f s)
  | .raised s => .raised (f s)
  | .stuck r => .stuck r

theorem andThen_carry {α β : Type} {f : State → State} {k : α → State → Eff β}
    (next : ∀ v s, k v (f s) = carry f (k v s)) (e : Eff α) : (carry f e).andThen k = carry f (e.andThen k) := by
  cases e with
  | done v s => exact next v s
  | raised s => rfl
  | stuck r => rfl

theorem outcome_carry {α : Type} (f : State → State) (e : Eff α) : (carry f e).outcome = mapNext f e.outcome := by
  cases e <;> rfl

/-- `f` changes nothing that an instruction without requests reads, and commutes with all that it writes. -/
structure Carried (f : State → State) : Prop where
  reg : ∀ s r, (f s).reg r = s.reg r
  pc : ∀ s, (f s).pc = s.pc
  cond : ∀ s, (f s).cond = s.cond
  setReg : ∀ s r v, (f s).setReg r v = f (s.setReg r v)
  setPc : ∀ s v, (f s).setPc v = f (s.setPc v)
  setcc : ∀ s r, setcc r (f s) = f (setcc r s)
  storeWord : ∀ s a v, storeWord a v (f s) = f (storeWord a v s)
  raise : ∀ s c, raise c (f s) = f (raise c s)
  consoleWrite : ∀ s b, consoleWrite b (f s) = f (consoleWrite b s)
  clearRun : ∀ s, clearRun (f s) = f (clearRun s)

/-- Reads of memory carry `f` along. -/
structure ReadsCarry (f : State → State) : Prop where
  memRead : ∀ a s, memRead a (f s) = carry f (memRead a s)
  console : ∀ s, (f s).console = s.console

/-- Console reads carry `f` along. -/
def InputCarries (f : State → State) : Prop := ∀ s, consoleRead (f s) = carry f (consoleRead s)

section
variable {f : State → State} (c : Carried f)
include c

theorem writeDest_carried (s : State) (dr : Reg) (v : Word) : writeDest dr v (f s) = f (writeDest dr v s) := by
  rw [writeDest, c.setReg, c.setcc, writeDest]

theorem linkR7_carried (s : State) : linkR7 (f s) = f (linkR7 s) := by
  rw [linkR7, c.pc, c.setReg, linkR7]

theorem consoleWriteAll_carried (bs : List Byte) : ∀ s, consoleWriteAll bs (f s) = f (consoleWriteAll bs s) := by
  induction bs with
  | nil => exact fun _ => rfl
  | cons b bs ih =>
    intro s
    have first := ih (consoleWrite b s)
    rw [← c.consoleWrite] at first
    exact first

/-! ## The loads and the pointer of STI -/

theorem loadInto_carried (reads : ReadsCarry f) (dr : Reg) (a : Word) (s : State) :
    loadInto dr a (f s) = carry f (loadInto dr a s) := by
  rw [loadInto, reads.memRead]
  exact andThen_carry (fun v s => by rw [writeDest_carried c]; rfl) _

theorem exec_ldi_carried (reads : ReadsCarry f) (dr : Reg) (off : BitVec 9) (s : State) :
    exec (.ldi dr off) (f s) = mapNext f (exec (.ldi dr off) s) := by
  rw [exec_ldi, exec_ldi, c.pc, reads.memRead, andThen_carry fun p s => loadInto_carried c reads dr p s, outcome_carry]

theorem exec_sti_carried (reads : ReadsCarry f) (sr : Reg) (off : BitVec 9) (s : State) :
    exec (.sti sr off) (f s) = mapNext f (exec (.sti sr off) s) := by
  have write (p : Word) (s : State) : (Eff.done () (storeWord p ((f s).reg sr) (f s)) : Eff Unit) =
      carry f (.done () (storeWord p (s.reg sr) s)) := by
    rw [c.reg, c.storeWord]
    rfl
  rw [exec_sti, exec_sti, c.pc, reads.memRead, andThen_carry write, outcome_carry]

/-! ## The services -/

theorem walk_carried (reads : ReadsCarry f) (format : StringFormat) (fuel : Nat) : ∀ (a : Word) (s : State),
    format.walk fuel a (f s) = carry f (format.walk fuel a s) := by
  induction fuel with
  | zero => exact fun _ _ => rfl
  | succ fuel ih =>
    intro a s
    rw [StringFormat.walk, reads.memRead]
    refine andThen_carry (fun w s => ?_) _
    rw [consoleWriteAll_carried c, ih]
    split_ifs <;> rfl

omit c in
theorem walkFuel_carried (reads : ReadsCarry f) (s : State) : walkFuel (f s) = walkFuel s := by
  rw [walkFuel, reads.console, walkFuel]

theorem exec_puts_carried (reads : ReadsCarry f) (s : State) : exec .puts (f s) = mapNext f (exec .puts s) := by
  rw [exec_puts_eq_walk, linkR7_carried c, walkFuel_carried reads, c.reg, walk_carried c reads, outcome_carry,
    exec_puts_eq_walk]

theorem exec_putsp_carried (reads : ReadsCarry f) (s : State) : exec .putsp (f s) = mapNext f (exec .putsp s) := by
  rw [exec_putsp_eq_walk, linkR7_carried c, walkFuel_carried reads, c.reg, walk_carried c reads, outcome_carry,
    exec_putsp_eq_walk]

theorem exec_getc_carried (input : InputCarries f) (s : State) : exec .getc (f s) = mapNext f (exec .getc s) := by
  have write (k : Byte) (s : State) : (Eff.done () ((f s).setReg 0 (zext8 k)) : Eff Unit) =
      carry f (.done () (s.setReg 0 (zext8 k))) := by
    rw [c.setReg]
    rfl
  rw [exec_getc, exec_getc, linkR7_carried c, input, andThen_carry write, outcome_carry]

theorem prompted_carried (s : State) : prompted (f s) = f (prompted s) := by
  have written (s : State) : prompted s = consoleWriteAll prompt (linkR7 s) :=
    (consoleWriteAll_eq prompt (linkR7 s)).symm
  rw [written, linkR7_carried c, consoleWriteAll_carried c, written]

theorem exec_in_carried (input : InputCarries f) (s : State) : exec .inp (f s) = mapNext f (exec .inp s) := by
  have write (k : Byte) (s : State) : (Eff.done () ((consoleWrite k (f s)).setReg 0 (zext8 k)) : Eff Unit) =
      carry f (.done () ((consoleWrite k s).setReg 0 (zext8 k))) := by
    rw [c.consoleWrite, c.setReg]
    rfl
  rw [exec_in, exec_in, prompted_carried c, input, andThen_carry write, outcome_carry]

theorem exec_out_carried (s : State) : exec .out (f s) = mapNext f (exec .out s) := by
  rw [exec_out, exec_out, linkR7_carried c, c.reg, c.consoleWrite]
  rfl

theorem exec_halt_carried (s : State) : exec .halt (f s) = mapNext f (exec .halt s) := by
  rw [exec_halt, exec_halt, linkR7_carried c, consoleWriteAll_carried c, c.clearRun]
  rfl

/-! ## Every row -/

omit c in
theorem vector_cases (v : BitVec 8) : v = 0x20 ∨ v = 0x21 ∨ v = 0x22 ∨ v = 0x23 ∨ v = 0x24 ∨ v = 0x25 ∨
    v.toNat < 0x20 ∨ 0x25 < v.toNat := by
  bv_omega

theorem exec_trap_carried (v : BitVec 8) (reads : readsMemory (.trap v) → ReadsCarry f)
    (input : readsConsole (.trap v) → InputCarries f) (s : State) :
    exec (.trap v) (f s) = mapNext f (exec (.trap v) s) := by
  rcases vector_cases v with rfl | rfl | rfl | rfl | rfl | rfl | outside
  · rw [exec_trap_getc, exec_trap_getc, exec_getc_carried c (input (.inl rfl))]
  · rw [exec_trap_out, exec_trap_out, exec_out_carried c]
  · rw [exec_trap_puts, exec_trap_puts, exec_puts_carried c (reads (.inl rfl))]
  · rw [exec_trap_in, exec_trap_in, exec_in_carried c (input (.inr rfl))]
  · rw [exec_trap_putsp, exec_trap_putsp, exec_putsp_carried c (reads (.inr rfl))]
  · rw [exec_trap_halt, exec_trap_halt, exec_halt_carried c]
  · rw [exec_trap_unknown outside, exec_trap_unknown outside, linkR7_carried c, c.raise]
    rfl

/-- An instruction carries along what its own kind of request does. -/
theorem exec_carried (i : Instr) (reads : readsMemory i → ReadsCarry f) (input : readsConsole i → InputCarries f)
    (s : State) : exec i (f s) = mapNext f (exec i s) := by
  cases i with
  | br n z p off =>
    rw [exec_br, exec_br, c.cond, c.pc, c.setPc]
    split_ifs <;> rfl
  | addReg dr sr1 sr2 => rw [exec_addReg, exec_addReg, c.reg, c.reg, writeDest_carried c]; rfl
  | addImm dr sr1 imm5 => rw [exec_addImm, exec_addImm, c.reg, writeDest_carried c]; rfl
  | ld dr off => rw [exec_ld, exec_ld, c.pc, loadInto_carried c (reads trivial), outcome_carry]
  | st sr off => rw [exec_st, exec_st, eaPc, eaPc, c.pc, c.reg, c.storeWord]; rfl
  | jsr off => rw [exec_jsr, exec_jsr, c.pc, linkR7_carried c, c.setPc]; rfl
  | jsrr base => rw [exec_jsrr, exec_jsrr, linkR7_carried c, c.reg, c.setPc]; rfl
  | andReg dr sr1 sr2 => rw [exec_andReg, exec_andReg, c.reg, c.reg, writeDest_carried c]; rfl
  | andImm dr sr1 imm5 => rw [exec_andImm, exec_andImm, c.reg, writeDest_carried c]; rfl
  | ldr dr base off => rw [exec_ldr, exec_ldr, c.reg, loadInto_carried c (reads trivial), outcome_carry]
  | str sr base off => rw [exec_str, exec_str, eaBase, eaBase, c.reg, c.reg, c.storeWord]; rfl
  | rti low => rw [exec_rti, exec_rti, c.raise]; rfl
  | not dr sr => rw [exec_not, exec_not, c.reg, writeDest_carried c]; rfl
  | ldi dr off => exact exec_ldi_carried c (reads trivial) dr off s
  | sti sr off => exact exec_sti_carried c (reads trivial) sr off s
  | jmp base => rw [exec_jmp, exec_jmp, c.reg, c.setPc]; rfl
  | res low => rw [exec_res, exec_res, c.raise]; rfl
  | lea dr off => rw [exec_lea, exec_lea, c.pc, writeDest_carried c]; rfl
  | trap v => exact exec_trap_carried c v reads input s
  | getc => exact exec_getc_carried c (input trivial) s
  | out => exact exec_out_carried c s
  | puts => exact exec_puts_carried c (reads trivial) s
  | inp => exact exec_in_carried c (input trivial) s
  | putsp => exact exec_putsp_carried c (reads trivial) s
  | halt => exact exec_halt_carried c s
  | ret => rw [exec_ret, exec_ret, c.reg, c.setPc]; rfl

/-- A step carries along what the run loop's test does not look at and every request does. -/
theorem step_carried (reads : ReadsCarry f) (input : InputCarries f) (fault : ∀ s, (f s).fault = s.fault)
    (run : ∀ s, (f s).run = s.run) (s : State) : step (f s) = mapNext f (step s) := by
  cases recorded : s.fault with
  | some cause =>
    rw [step_of_faulted recorded, step_of_faulted ((fault s).trans recorded)]
    rfl
  | none =>
    cases running : s.run with
    | false =>
      rw [step_of_halted recorded running, step_of_halted ((fault s).trans recorded) ((run s).trans running)]
      rfl
    | true =>
      have live : Live s := ⟨running, recorded⟩
      have liveToo : Live (f s) := ⟨(run s).trans running, (fault s).trans recorded⟩
      have readToo : memRead (f s).pc (f s) = carry f (memRead s.pc s) := by
        rw [c.pc]
        exact reads.memRead s.pc s
      cases read : memRead s.pc s with
      | done ir s1 =>
        rw [read] at readToo
        rw [step_of_fetch_done live (fetch_of_done read), step_of_fetch_done liveToo (fetch_of_done readToo), c.pc,
          c.setPc, exec_carried c _ (fun _ => reads) (fun _ => input)]
      | raised s1 =>
        rw [read] at readToo
        rw [step_of_fetch_raised live (fetch_of_raised read), step_of_fetch_raised liveToo (fetch_of_raised readToo)]
        rfl
      | stuck r => exact absurd read (memRead_not_stuck _ _ r)

end

end Sys2Proof.Proofs
end

section
/-! The keyboard that no request asks (`60_exceptions.md` R193), and the display that nothing reads (`10_state.md`
R37). -/

namespace Sys2Proof.Proofs
open Sys2Proof.Machine Sys2Proof.Safety Sys2Proof.Laws

/-! ## Another keyboard -/

/-- The machine with another console. -/
def withConsole (con : Console) (s : State) : State := { s with console := con }

theorem withConsole_carried (con : Console) : Carried (withConsole con) where
  reg _ _ := rfl
  pc _ := rfl
  cond _ := rfl
  setReg _ _ _ := rfl
  setPc _ _ := rfl
  setcc _ _ := rfl
  storeWord _ _ _ := rfl
  raise _ _ := rfl
  consoleWrite _ _ := rfl
  clearRun _ := rfl

/-- Settles O58: an instruction without requests carries the other console along. -/
theorem keyboardCannotInterrupt : Obligations.KeyboardCannotInterrupt :=
  fun i s con noRead noInput =>
    exec_carried (withConsole_carried con) i (fun reads => absurd reads noRead) (fun input => absurd input noInput) s

/-! ## Bytes written before -/

/-- The machine that has written `before` first. -/
def withBefore (before : List Byte) (s : State) : State := { s with out := before ++ s.out }

theorem withBefore_carried (before : List Byte) : Carried (withBefore before) where
  reg _ _ := rfl
  pc _ := rfl
  cond _ := rfl
  setReg _ _ _ := rfl
  setPc _ _ := rfl
  setcc _ _ := rfl
  storeWord _ _ _ := rfl
  raise _ _ := rfl
  consoleWrite s b := by simp [consoleWrite, withBefore]
  clearRun _ := rfl

theorem withBefore_input (before : List Byte) : InputCarries (withBefore before) := by
  intro s
  cases keys : s.console.keys with
  | cons k rest => rw [consoleRead_of_key keys, consoleRead_of_key (s := withBefore before s) keys]; rfl
  | nil =>
    cases tail : s.console.tail with
    | ended => rw [consoleRead_of_ended keys tail, consoleRead_of_ended (s := withBefore before s) keys tail]; rfl
    | silent => rw [consoleRead_of_silent keys tail, consoleRead_of_silent (s := withBefore before s) keys tail]; rfl
    | endless b =>
      rw [consoleRead_of_endless keys tail, consoleRead_of_endless (s := withBefore before s) keys tail]
      rfl
    | stream c => rw [consoleRead_of_stream keys tail, consoleRead_of_stream (s := withBefore before s) keys tail]; rfl

theorem consolePoll_withBefore {s s1 : State} {b : Bool} (poll : consolePoll s = (b, s1)) (before : List Byte) :
    consolePoll (withBefore before s) = (b, withBefore before s1) := by
  obtain ⟨answer, rfl⟩ := consolePoll_eq_iff.mp poll
  exact consolePoll_eq_iff.mpr ⟨answer, rfl⟩

theorem memRead_kbsr_withBefore (before : List Byte) (s : State) :
    memRead kbsr (withBefore before s) = carry (withBefore before) (memRead kbsr s) := by
  obtain ⟨-, noWait, -⟩ := pollIsNonBlocking s
  rcases poll : consolePoll s with ⟨_ | _, s1⟩
  · rw [memRead_kbsr_of_no_key poll, memRead_kbsr_of_no_key (consolePoll_withBefore poll before)]
    rfl
  · have input := withBefore_input before s1
    cases read : consoleRead s1 with
    | done k s2 =>
      rw [read] at input
      rw [memRead_kbsr_of_key poll read, memRead_kbsr_of_key (consolePoll_withBefore poll before) input]
      rfl
    | raised s2 =>
      rw [read] at input
      rw [memRead_kbsr_of_raised poll read, memRead_kbsr_of_raised (consolePoll_withBefore poll before) input]
      rfl
    | stuck r => exact absurd read (noWait s1 poll r)

theorem withBefore_reads (before : List Byte) : ReadsCarry (withBefore before) where
  memRead a s := by
    by_cases atKbsr : a = kbsr
    · rw [atKbsr]
      exact memRead_kbsr_withBefore before s
    · rw [memRead_plain _ atKbsr, memRead_plain _ atKbsr]
      rfl
  console _ := rfl

/-- Settles O57: the run loop's test does not see the output, and fetch and instruction carry it along. -/
theorem outputIsNeverRead : Obligations.OutputIsNeverRead := by
  intro s before
  exact step_carried (withBefore_carried before) (withBefore_reads before) (withBefore_input before)
    (fun _ => rfl) (fun _ => rfl) s

end Sys2Proof.Proofs
end
